-- ==== Sys2Proof/Word.lean ====
section
/-! DEFINITION. The machine's three word types (spec/00_scope.md R4, R9, R10; spec/20_memory.md R38). -/

namespace Sys2Proof

/-- A bus word, a command word or a counter: 32 bits (R9). -/
abbrev Word := BitVec 32

/-- A field element or an exponent: 256 bits, unsigned (R4, R10). -/
abbrev Elem := BitVec 256

/-- A byte offset in the register window: 0x00 to 0xFF (R38, R54). -/
abbrev Offset := BitVec 8

/-- A byte of a word on a byte-addressed platform (R44). -/
abbrev Byte := BitVec 8

end Sys2Proof
end

