-- ==== Sys2Proof/Config.lean ====
section
/-! DEFINITION. What is fixed for the machine: the modulus (R3), the parameters of R9, the open parameter BASE, and
the free values the spec leaves open. An `opaque` below has no body: no proof can see its value. -/

namespace Sys2Proof.Config

/-- The modulus, a hardwired constant (R3). -/
def P : Nat := 2 ^ 256 - 2 ^ 32 - 977

/-- `W`, the width of operands and exponents, which bounds the exp loop's iterations (R9). -/
def W : Nat := 256

/-- `BASE`, the platform address of the register window: OPEN (R9, R38; U11). Log entry 12. -/
opaque base : Nat

/-- `draw(32)`: the n-th free word, read from a counter while a command is in flight (R28; U3).
A free value, log entry 8. -/
opaque draw : Nat → Word

/-- The n-th free content of a 256-bit register that a hardware reset leaves unspecified (R36; U9).
A free value, log entry 10. -/
opaque unspecifiedElem : Nat → Elem

/-- The n-th free word whose decoding LOP holds after a hardware reset (R36; U9). A free value, log entry 10. -/
opaque unspecifiedCommand : Nat → Word

end Sys2Proof.Config
end

