-- ==== Sys2Proof/Syntax.lean ====
section
/-! DEFINITION. The six legal commands, one constructor per row of spec/opcode_table.json (R58). The command word has
no operand field, so no constructor has an argument (R56, R57). -/

namespace Sys2Proof

/-- A legal command (R58): its operands are OPA and OPB and its result goes to RES, always (R56). -/
inductive Instr where
  /-- ADD, the modular_adder (R68). -/
  | add
  /-- SUB, the modular_subtractor (R69). -/
  | sub
  /-- MUL, the modular_multiplier (R71). -/
  | mul
  /-- INV, the fermat_inverse (R82). -/
  | inv
  /-- DIV, the modular_divider (R83). -/
  | div
  /-- EXP, the modular_exp_engine's own command (R77). -/
  | exp
  deriving DecidableEq, Repr

end Sys2Proof
end

