-- ==== Sys2Proof/WellFormed.lean ====
section
/-! DEFINITION. What is well formed: a command, and the form of a host access. A command has no field, so every one is
well formed; the words that are no command are refused by the decoder. The host's accesses have a form that can be
broken (R39): their size and their alignment. -/

namespace Sys2Proof

/-- A host access to the register window (R12, R41, R42). `size` is in bytes: 4 is the only one the window takes (R39),
and the others are here so that the rule that refuses them can be stated. -/
inductive Access where
  /-- `MemRead(off, size)`. -/
  | read (off : Offset) (size : Nat)
  /-- `MemWrite(off, size, v)`. -/
  | write (off : Offset) (size : Nat) (v : Word)
  deriving DecidableEq, Repr

namespace Access

/-- The byte offset an access names. -/
def off : Access → Offset
  | .read o _ => o
  | .write o _ _ => o

/-- The size of an access in bytes. -/
def size : Access → Nat
  | .read _ n => n
  | .write _ n _ => n

/-- The size check: a 32-bit word is the only size (R39). -/
def sizeOk (a : Access) : Bool := a.size == 4

/-- The alignment check: the offset is a multiple of 4 (R39, R45). -/
def alignOk (a : Access) : Bool := a.off.toNat % 4 == 0

/-- The form of a legal access (R39). Whether the register map lists it is `Machine.regAt`'s matter (R40). -/
def wellFormed (a : Access) : Bool := a.sizeOk && a.alignOk

end Access

/-- Every command is well formed: it has no field that could be out of range (R55, R56). -/
def Instr.wellFormed : Instr → Bool
  | .add | .sub | .mul | .inv | .div | .exp => true

end Sys2Proof
end

