-- ==== Sys2Proof/Decode.lean ====
section
/-! DEFINITION. The command word: decoder and encoder (R55 to R61, R63), and the bytes of a word on a byte-addressed
platform (R44). The decoder is total: a word it refuses is ILLEGAL, which the machine runs as a command that ends with
IllegalCommand (R61), so a refusal here is no refusal of the machine. -/

namespace Sys2Proof

/-- Why a word is no legal command (R61). -/
inductive Reject where
  /-- A bit of RSVD (31:3) is set. -/
  | reservedBits
  /-- OP (2:0) is 6 or 7. -/
  | reservedOpcode
  /-- The bytes given are not exactly one 32-bit word (R63). -/
  | notOneWord
  deriving DecidableEq, Repr

/-- OP, bits 2:0 of a command word (R55). -/
def opField (v : Word) : BitVec 3 := v.extractLsb' 0 3

/-- RSVD, bits 31:3 of a command word (R55). -/
def rsvdField (v : Word) : BitVec 29 := v.extractLsb' 3 29

/-- The legal command of an OP value (R58). -/
def decodeOp (op : BitVec 3) : Except Reject Instr :=
  match op.toNat with
  | 0 => .ok .add
  | 1 => .ok .sub
  | 2 => .ok .mul
  | 3 => .ok .inv
  | 4 => .ok .div
  | 5 => .ok .exp
  | _ => .error .reservedOpcode

/-- `Decode(v)`: RSVD is checked first, then OP (R61). -/
def decode (v : Word) : Except Reject Instr :=
  if rsvdField v ≠ 0 then .error .reservedBits else decodeOp (opField v)

/-- The OP value of a command (R58). -/
def opcode : Instr → BitVec 3
  | .add => 0
  | .sub => 1
  | .mul => 2
  | .inv => 3
  | .div => 4
  | .exp => 5

/-- The word of a command: OP with RSVD zero (R55, R58). -/
def encode (i : Instr) : Word := (opcode i).setWidth 32

/-- Byte `j` of a word carries bits 8j+7:8j (R44). -/
def byteOf (v : Word) (j : Fin 4) : Byte := v.extractLsb' (8 * j.val) 8

/-- The four bytes of a word, lowest platform address first (R44). -/
def wordToBytes (v : Word) : List Byte := [byteOf v 0, byteOf v 1, byteOf v 2, byteOf v 3]

/-- The word of four bytes, lowest platform address first (R44). -/
def bytesToWord (b0 b1 b2 b3 : Byte) : Word := b3 ++ b2 ++ b1 ++ b0

/-- Decoding bytes: a command is exactly one word (R63). -/
def decodeBytes : List Byte → Except Reject Instr
  | [b0, b1, b2, b3] => decode (bytesToWord b0 b1 b2 b3)
  | _ => .error .notOneWord

/-- The bytes of a command's word (R44). -/
def encodeBytes (i : Instr) : List Byte := wordToBytes (encode i)

/-- The word of the bits `w` that the opcode table numbers (`nbits` of them, the bits above zero). -/
def tableWord (nbits w : Nat) : Word := BitVec.ofNat 32 (w % 2 ^ nbits)

/-- The command the decoder reads from the opcode table's bits. A row longer than one word is no command (R63). -/
def decodeTableWord (nbits w : Nat) : Option Instr :=
  if nbits ≤ 32 then (decodeBytes (wordToBytes (tableWord nbits w))).toOption else none

end Sys2Proof
end

