-- ==== Sys2Proof/Machine/State.lean ====
section
/-! DEFINITION. The state of one instance of the core (R16, "Nothing else is state"), with three fields that are the
model's own: what is still to come from outside, what the host has read, and how many free values were used. -/

namespace Sys2Proof.Machine

/-- Why the model stops: the closed list of model fault reasons (R100). Each is a place where the spec gives the
hardware no behaviour, so each is safe: nothing can be proved of what comes after (R99). -/
inductive Fault where
  /-- Raised by a host access that is misaligned, not a word, or not in the register map (R39, R46). Safe. -/
  | illegalAccess
  /-- Raised by a CMD write while a command is in flight (R59). Safe. -/
  | commandWhileBusy
  /-- Raised by a CMD write whose command reads an operand word not written since reset: the spec's own outcome
  (R22, the pseudocode of R59, R93 items 4 and 5, R100, R110, D12, U6, V8.6). Safe: a conforming implementation may do
  anything there (R99), so running the command on some value would promise what the spec does not. -/
  | unwrittenOperand
  /-- Raised by a host read of an OPA or OPB word not written since reset: the spec's own outcome (R22, the pseudocode
  of R42, R94, R100, R109, R115, D12, U7, V8.18). Safe, for the same reason (R99); the word is never observable (U9). -/
  | unwrittenRead
  /-- Raised by a host read of RES while STATUS.RVALID = 0 (R42). Safe. -/
  | invalidResultRead
  deriving DecidableEq, Repr

/-- Why the model gives no meaning. -/
inductive Refusal where
  /-- Raised by an arm of `exec` whose command has no meaning yet; no arm does so now. Safe: nothing can be proved of
  what comes after. -/
  | notModelled (mnemonic : String)
  deriving DecidableEq, Repr

/-- The architected errors, which a command reports in STATUS when it completes (R87). -/
inductive ArchError where
  /-- INV or DIV on a zero residue (R88). -/
  | divisionByZero
  /-- A command word that decodes to ILLEGAL (R89). -/
  | illegalCommand
  deriving DecidableEq, Repr

/-- LOP's values: a legal command or ILLEGAL (R30). -/
inductive Op where
  | legal (i : Instr)
  | illegal
  deriving DecidableEq, Repr

/-- PH, the unit's phase (R29). -/
inductive Phase where
  /-- No command in flight. -/
  | idle
  /-- A command has been latched and its first unit step is pending. -/
  | start
  /-- The square-and-multiply loop is running. -/
  | expLoop
  /-- DIV's final multiplication is pending. -/
  | divFinal
  deriving DecidableEq, Repr

/-- A register of the window, as an offset names it (R40). -/
inductive Reg where
  | cmd
  | status
  | itercnt
  | mulcnt
  | opa (k : Fin 8)
  | opb (k : Fin 8)
  | res (k : Fin 8)
  | pmod (k : Fin 8)
  | reserved
  deriving DecidableEq, Repr

/-- What a read of the window gives (R42). -/
inductive Answer where
  | value (v : Word)
  | draw
  | fault (r : Fault)
  deriving DecidableEq, Repr

/-- One entry of the interleaving still to come (R13, R49). DESIGN CHOICE, log entries 1 and 4. -/
inductive Event where
  /-- A Host step: one bus access. -/
  | access (a : Access)
  /-- A Host step that writes this word to CMD, followed at once by all the unit steps of that command (R66). -/
  | command (v : Word)
  /-- A turn of the Unit. -/
  | unit
  /-- The `rst` input is asserted (R107). -/
  | reset
  deriving DecidableEq, Repr

/-- The state of one instance (R16). PMOD is the constant `Config.P` (R17) and CMD has no storage (R23), so neither is
a field. -/
structure State where
  /-- OPA, operand register A (R18). -/
  opa : Elem
  /-- OPB, operand register B (R19). -/
  opb : Elem
  /-- RES, the result register, valid when STATUS.RVALID = 1 (R21). -/
  res : Elem
  /-- OPA_W: bit k says that word k of OPA was written since reset (R22). -/
  opaW : BitVec 8
  /-- OPB_W (R22). -/
  opbW : BitVec 8
  /-- STATUS (R24). -/
  status : Word
  /-- ITERCNT (R26). -/
  itercnt : Word
  /-- MULCNT (R27). -/
  mulcnt : Word
  /-- PH (R29). -/
  ph : Phase
  /-- LOP, the latched command (R30). -/
  lop : Op
  /-- LA, the latched copy of OPA (R30). -/
  la : Elem
  /-- LB, the latched copy of OPB (R30). -/
  lb : Elem
  /-- SQ, the square accumulator (R31). -/
  sq : Elem
  /-- RACC, the result accumulator (R31). -/
  racc : Elem
  /-- E, the exponent bits not yet consumed (R31). -/
  e : Elem
  /-- FAULT, the sticky model fault mark (R33). -/
  fault : Option Fault
  /-- The model's own: the interleaving still to come, the next entry first. Log entry 1. -/
  agenda : List Event
  /-- The model's own: the words the host has read, the newest first. Log entry 7. -/
  replies : List Word
  /-- The model's own: how many free values have been used. Log entry 8. -/
  draws : Nat
  deriving DecidableEq, Repr

/-- The machine at model launch (R36, R107). The registers R36 leaves unspecified hold zero, and LOP holds ILLEGAL:
DESIGN CHOICE, log entry 9. -/
def State.reset : State where
  opa := 0
  opb := 0
  res := 0
  opaW := 0
  opbW := 0
  status := 0
  itercnt := 0
  mulcnt := 0
  ph := .idle
  lop := .illegal
  la := 0
  lb := 0
  sq := 0
  racc := 0
  e := 0
  fault := none
  agenda := []
  replies := []
  draws := 0

end Sys2Proof.Machine
end

