-- ==== Sys2Proof/Machine/Flags.lean ====
section
/-! DEFINITION. STATUS: its fields and the words the core writes to it (R24, R59, R62), and the two output ports that
mirror it (R54). The core has no other flag (R34). -/

namespace Sys2Proof.Machine

/-- STATUS.BUSY, bit 0 (R24). -/
def State.busy (s : State) : Bool := s.status.getLsbD 0

/-- STATUS.DONE, bit 1 (R24). -/
def State.done (s : State) : Bool := s.status.getLsbD 1

/-- STATUS.ERR, bit 2 (R24). -/
def State.err (s : State) : Bool := s.status.getLsbD 2

/-- STATUS.RVALID, bit 3 (R24). -/
def State.rvalid (s : State) : Bool := s.status.getLsbD 3

/-- STATUS.ERRCODE, bits 7:4 (R24). -/
def State.errcode (s : State) : BitVec 4 := s.status.extractLsb' 4 4

/-- The output port `busy`, always equal to STATUS.BUSY (R54, R95). -/
def State.busyPort (s : State) : Bool := s.busy

/-- The output port `done`, always equal to STATUS.DONE (R54, R95). -/
def State.donePort (s : State) : Bool := s.done

/-- STATUS at a command start: BUSY alone (R59). -/
def statusStarted : Word := 0x00000001

/-- STATUS at a successful completion: DONE and RVALID (R62). -/
def statusOk : Word := 0x0000000A

/-- The error code an architected error reports (R87). -/
def ArchError.code : ArchError → BitVec 4
  | .divisionByZero => 1
  | .illegalCommand => 2

/-- STATUS at an error completion: DONE and ERR, with the code in bits 7:4 (R62). -/
def statusErr (c : BitVec 4) : Word := 0x00000006 ||| (c.setWidth 32 <<< 4)

end Sys2Proof.Machine
end

