-- ==== Sys2Proof/Machine/Operands.lean ====
section
/-! DEFINITION. The operands: which command reads which register (R18, R19, R59), the words of a 256-bit register
(R10, R43), the written marks (R22), and the exact field arithmetic (R11, R67, R70, R81). -/

namespace Sys2Proof.Machine

/-- `REG.word[k]`, bits 32k+31:32k (R10, R43). -/
def wordOf (x : Elem) (k : Fin 8) : Word := x.extractLsb' (32 * k.val) 32

/-- `REG[32k+31:32k] <- v` (R41). -/
def setWordOf (x : Elem) (k : Fin 8) (v : Word) : Elem :=
  (x &&& ~~~((0xFFFFFFFF#256) <<< (32 * k.val))) ||| (v.setWidth 256 <<< (32 * k.val))

/-- The 256-bit value of eight words, word 0 the least significant (R43, R65). -/
def elemOfWords (w0 w1 w2 w3 w4 w5 w6 w7 : Word) : Elem :=
  w7 ++ w6 ++ w5 ++ w4 ++ w3 ++ w2 ++ w1 ++ w0

/-- The written mark of word k (R22). -/
def marked (m : BitVec 8) (k : Fin 8) : Bool := m.getLsbD k.val

/-- Setting the written mark of word k (R22). -/
def setMark (m : BitVec 8) (k : Fin 8) : BitVec 8 := m ||| (1#8 <<< k.val)

/-- All eight words of a register are written (R59). -/
def allMarked (m : BitVec 8) : Bool := m == 0xFF#8

/-- LOP's value for a CMD word (R59, R61). -/
def Op.ofWord (v : Word) : Op :=
  match decode v with
  | .ok i => .legal i
  | .error _ => .illegal

/-- `readsA` of R59: every command but an illegal one reads OPA (R18). -/
def Op.readsA : Op → Bool
  | .legal .add | .legal .sub | .legal .mul | .legal .inv | .legal .div | .legal .exp => true
  | .illegal => false

/-- `readsB` of R59: INV and an illegal command do not read OPB (R19). -/
def Op.readsB : Op → Bool
  | .legal .add | .legal .sub | .legal .mul | .legal .div | .legal .exp => true
  | .legal .inv | .illegal => false

/-- PMOD's value: the modulus as a register reads it (R17). -/
def pmod : Elem := BitVec.ofNat 256 Config.P

/-- `P − 2`, the hardwired exponent of INV and DIV (R3, R57). -/
def fermatExponent : Elem := BitVec.ofNat 256 (Config.P - 2)

/-- `n mod P` as a register value; n is any exact integer (R11, R67). -/
def reduce (n : Nat) : Elem := BitVec.ofNat 256 (n % Config.P)

/-- `(x + y) mod P` from the exact 257-bit sum (R67, R68). -/
def addMod (x y : Elem) : Elem := reduce (x.toNat + y.toNat)

/-- `(x + (P − (y mod P))) mod P`, in the source's order of steps (R69). -/
def subMod (x y : Elem) : Elem :=
  let t := y.toNat % Config.P
  let u := Config.P - t
  reduce (x.toNat + u)

/-- `MulMod(x, y)`: `(x · y) mod P` from the exact 512-bit product (R70). -/
def mulMod (x y : Elem) : Elem := reduce (x.toNat * y.toNat)

/-- `ZeroResidue(x)`: `x mod P = 0` (R81). -/
def zeroResidue (x : Elem) : Bool := x.toNat % Config.P == 0

end Sys2Proof.Machine
end

