-- ==== Sys2Proof/Machine/Ops.lean ====
section
/-! DEFINITION. The shared operations: setting a model fault (R101), starting a command (R59), the two completions
(R62), raising an architected error (R98), counting (R26, R27), and running a command from its CMD write to its
completion (R66). There is no return from an error: the next command start clears the report (R92). -/

namespace Sys2Proof.Machine

/-- `fault <Reason>`: sets FAULT if it is empty and writes nothing else (R101). -/
def raiseFault (r : Fault) (s : State) : State :=
  { s with fault := match s.fault with
      | none => some r
      | some q => some q }

/-- `CompleteOK(r)` (R62). -/
def completeOk (r : Elem) (s : State) : State :=
  { s with res := r, status := statusOk, ph := .idle }

/-- `CompleteErr(c)`: RES and the counters keep their values (R62). -/
def completeErr (c : BitVec 4) (s : State) : State :=
  { s with status := statusErr c, ph := .idle }

/-- `raise <Error>`: taking an architected error IS completing with its code (R98). -/
def raise (x : ArchError) (s : State) : State := completeErr x.code s

/-- `MULCNT <- MULCNT + 1` (R27). -/
def countMul (s : State) : State := { s with mulcnt := s.mulcnt + 1 }

/-- `ITERCNT <- ITERCNT + 1` (R26). -/
def countIter (s : State) : State := { s with itercnt := s.itercnt + 1 }

/-- The checks of a CMD write, in the order of R59 and R93: the model fault it sets, if any. R59's pseudocode has the
two marks' checks word for word: "if readsA and (OPA_W[k] = 0 for some k in 0..7): fault UnwrittenOperand", and the same
for OPB. -/
def startFault (op : Op) (s : State) : Option Fault :=
  if s.busy then some .commandWhileBusy
  else if op.readsA && !allMarked s.opaW then some .unwrittenOperand
  else if op.readsB && !allMarked s.opbW then some .unwrittenOperand
  else none

/-- What a CMD write that passes its checks writes: the latches, STATUS, the counters and the phase (R59). -/
def latch (op : Op) (s : State) : State :=
  { s with
    lop := op
    la := if op.readsA then s.opa else s.la
    lb := if op.readsB then s.opb else s.lb
    status := statusStarted
    itercnt := 0
    mulcnt := 0
    ph := .start }

/-- A CMD write's whole effect: a model fault, or a command in flight (R59). -/
def startCommand (op : Op) (s : State) : State :=
  match startFault op s with
  | some r => raiseFault r s
  | none => latch op s

/-- `CommandWrite(v)` (R59). -/
def commandWrite (v : Word) (s : State) : State := startCommand (Op.ofWord v) s

/-- A command from its CMD write to its completion, where `run` is what its unit steps do (R59, R66). A set FAULT allows
no step (R101); a check of R59 that fails sets FAULT and starts nothing. Log entries 4 and 5. -/
def issue (op : Op) (run : State → State) (s : State) : Host.Outcome State Fault Refusal :=
  match s.fault with
  | some r => .fault r
  | none =>
    match startFault op s with
    | some r => .next (raiseFault r s)
    | none => .next (run (latch op s))

end Sys2Proof.Machine
end

