-- ==== Sys2Proof/Machine/Agenda.lean ====
section
/-! DEFINITION. What comes next: the next entry of the interleaving (R13, R49), and a command word placed so that the
very next step runs it. -/

namespace Sys2Proof.Machine

/-- The next event and the state without it. With nothing left to come from outside the Unit has its turn: a run goes
on with unit steps until PH = Idle (R120, R121), and an idle core does nothing (R104). Log entries 1 and 2. -/
def nextEvent (s : State) : Event × State :=
  match s.agenda with
  | [] => (.unit, s)
  | ev :: rest => (ev, { s with agenda := rest })

/-- A command word comes next, on a core whose host has done what R110 asks before a first command: the operand words
the command reads are marked written. Nothing else changes. Log entry 11. -/
def placeCommand (v : Word) (s : State) : State :=
  { s with
    agenda := .command v :: s.agenda
    opaW := if (Op.ofWord v).readsA then 0xFF#8 else s.opaW
    opbW := if (Op.ofWord v).readsB then 0xFF#8 else s.opbW }

end Sys2Proof.Machine
end

