-- ==== Sys2Proof/Machine/Bus.lean ====
section
/-! DEFINITION. The Host agent's accesses: the register map (R40), `MemWrite` (R41), `MemRead` (R42), and the window as
a byte-addressed platform sees it (R38, R44). -/

namespace Sys2Proof.Machine

/-- The register map: what a 4-byte aligned offset names (R40). -/
def regAt (off : Offset) : Reg :=
  let n := off.toNat
  if n < 0x04 then .cmd
  else if n < 0x08 then .status
  else if n < 0x0C then .itercnt
  else if n < 0x10 then .mulcnt
  else if n < 0x20 then .reserved
  else if n < 0x40 then .opa (Fin.ofNat 8 ((n - 0x20) / 4))
  else if n < 0x60 then .opb (Fin.ofNat 8 ((n - 0x40) / 4))
  else if n < 0x80 then .res (Fin.ofNat 8 ((n - 0x60) / 4))
  else if n < 0xA0 then .pmod (Fin.ofNat 8 ((n - 0x80) / 4))
  else .reserved

/-- Writing a word of OPA: the value and its mark (R41). -/
def writeOpa (k : Fin 8) (v : Word) (s : State) : State :=
  { s with opa := setWordOf s.opa k v, opaW := setMark s.opaW k }

/-- Writing a word of OPB: the value and its mark (R41). -/
def writeOpb (k : Fin 8) (v : Word) (s : State) : State :=
  { s with opb := setWordOf s.opb k v, opbW := setMark s.opbW k }

/-- `MemWrite(off, size, v)` (R41, R46): the form is checked first (R94). -/
def memWrite (off : Offset) (size : Nat) (v : Word) (s : State) : State :=
  if (Access.write off size v).wellFormed then
    match regAt off with
    | .cmd => commandWrite v s
    | .opa k => writeOpa k v s
    | .opb k => writeOpb k v s
    | .status | .itercnt | .mulcnt | .res _ | .pmod _ | .reserved => raiseFault .illegalAccess s
  else raiseFault .illegalAccess s

/-- What a `MemRead` of a register gives (R42, R28). R42's pseudocode has the marks' check word for word: "if OPA_W[k] = 0
then fault UnwrittenRead else return OPA[32k+31:32k]", and the same for OPB. -/
def readReg (g : Reg) (s : State) : Answer :=
  match g with
  | .status => .value s.status
  | .itercnt => if s.busy then .draw else .value s.itercnt
  | .mulcnt => if s.busy then .draw else .value s.mulcnt
  | .opa k => if marked s.opaW k then .value (wordOf s.opa k) else .fault .unwrittenRead
  | .opb k => if marked s.opbW k then .value (wordOf s.opb k) else .fault .unwrittenRead
  | .res k => if s.rvalid then .value (wordOf s.res k) else .fault .invalidResultRead
  | .pmod k => .value (wordOf pmod k)
  | .cmd | .reserved => .fault .illegalAccess

/-- What a `MemRead(off, size)` gives (R42, R46): the form is checked first (R94). -/
def readAnswer (off : Offset) (size : Nat) (s : State) : Answer :=
  if (Access.read off size).wellFormed then readReg (regAt off) s else .fault .illegalAccess

/-- `MemRead(off, size)`: the host gets the word; nothing of the core changes but FAULT (R42). A draw is a fresh free
value (R28, R47). Log entries 7 and 8. -/
def memRead (off : Offset) (size : Nat) (s : State) : State :=
  match readAnswer off size s with
  | .value v => { s with replies := v :: s.replies }
  | .draw => { s with replies := Config.draw s.draws :: s.replies, draws := s.draws + 1 }
  | .fault r => raiseFault r s

/-- One access. -/
def access (a : Access) (s : State) : State :=
  match a with
  | .read off size => memRead off size s
  | .write off size v => memWrite off size v s

/-- A Host step: a set FAULT allows none (R41, R42, R101). -/
def hostTurn (a : Access) (s : State) : Host.Outcome State Fault Refusal :=
  match s.fault with
  | some r => .fault r
  | none => .next (access a s)

/-- The offset of a platform address that the platform routes to the window (R38, R44). -/
def windowOffset (addr : Nat) : Option Offset :=
  if Config.base ≤ addr ∧ addr < Config.base + 256 then some (BitVec.ofNat 8 (addr - Config.base)) else none

/-- The byte at a platform address, where reading its word gives a value (R44): byte j of the word at offset off lies
at BASE + off + j. A view of the registers, not an access: the bus has no byte access (R39). -/
def platformByte (s : State) (addr : Nat) : Option Byte :=
  match windowOffset addr with
  | none => none
  | some o =>
    match readAnswer (BitVec.ofNat 8 (o.toNat / 4 * 4)) 4 s with
    | .value v => some (byteOf v (Fin.ofNat 4 o.toNat))
    | .draw => none
    | .fault _ => none

end Sys2Proof.Machine
end

