-- ==== Sys2Proof/Machine/Additive.lean ====
section
/-! DEFINITION. ADD and SUB (spec/40_add_sub.md). -/

namespace Sys2Proof.Machine

/-- `AddStart` (R68). -/
def addStart (s : State) : State := completeOk (addMod s.la s.lb) s

/-- `SubStart` (R69). -/
def subStart (s : State) : State := completeOk (subMod s.la s.lb) s

/-- ADD (R68): one unit step. -/
def execAdd (s : State) : Host.Outcome State Fault Refusal := issue (.legal .add) addStart s

/-- SUB (R69): one unit step. -/
def execSub (s : State) : Host.Outcome State Fault Refusal := issue (.legal .sub) subStart s

end Sys2Proof.Machine
end

