-- ==== Sys2Proof/Machine/ExpEngine.lean ====
section
/-! DEFINITION. The square-and-multiply engine and EXP (spec/42_exp.md). -/

namespace Sys2Proof.Machine

/-- `ExpInit(base, e)`: reducing the base is no multiplication and no iteration (R73). -/
def expInit (base e : Elem) (s : State) : State :=
  { s with sq := reduce base.toNat, racc := 1, e := e, ph := .expLoop }

/-- The conditional multiply of an iteration: taken when E[0] = 1, with SQ from before the squaring (R74). -/
def expMultiply (s : State) : State :=
  if s.e.getLsbD 0 then { countMul s with racc := mulMod s.racc s.sq } else s

/-- The squaring of an iteration, taken always (R74). -/
def expSquare (s : State) : State := { countMul s with sq := mulMod s.sq s.sq }

/-- `ExpIterate`: multiply if the bit is set, square, advance to the next bit (R74). -/
def expIterate (s : State) : State :=
  let t := expSquare (expMultiply s)
  countIter { t with e := t.e >>> 1 }

/-- `ExpExit` (R75). LOP holds EXP, INV or DIV here in every state a run reaches; for the others the spec gives no
step, and the state stays as it is (stuck, log entry 15). -/
def expExit (s : State) : State :=
  match s.lop with
  | .legal .exp => completeOk s.racc s
  | .legal .inv => completeOk s.racc s
  | .legal .div => { s with ph := .divFinal }
  | .legal .add | .legal .sub | .legal .mul | .illegal => s

/-- The loop: at most `n` iterations, ending when E = 0 (R74). -/
def expIterations : Nat → State → State
  | 0, s => s
  | n + 1, s => if s.e = 0 then s else expIterations n (expIterate s)

/-- The engine from the loop's entry through ExpExit, when the Start step entered the loop; a Start step that ended the
command leaves nothing to do. W iterations are enough for any exponent (R79). Log entry 21. -/
def runEngine (s : State) : State :=
  match s.ph with
  | .expLoop => expExit (expIterations Config.W s)
  | .idle | .start | .divFinal => s

/-- `ExpStart` (R77). -/
def expStart (s : State) : State := expInit s.la s.lb s

/-- EXP (R77): the engine on base OPA and exponent OPB. -/
def execExp (s : State) : Host.Outcome State Fault Refusal :=
  issue (.legal .exp) (fun t => runEngine (expStart t)) s

end Sys2Proof.Machine
end

