-- ==== Sys2Proof/Machine/InvDiv.lean ====
section
/-! DEFINITION. INV and DIV (spec/43_inv_div.md): the engine with the hardwired exponent P − 2. -/

namespace Sys2Proof.Machine

/-- `InvStart` (R82): the zero-residue test comes before any iteration (R81). -/
def invStart (s : State) : State :=
  if zeroResidue s.la then raise .divisionByZero s else expInit s.la fermatExponent s

/-- `DivStart` (R83): the divisor is tested, the dividend never. -/
def divStart (s : State) : State :=
  if zeroResidue s.lb then raise .divisionByZero s else expInit s.lb fermatExponent s

/-- `DivFinalStep` (R84): the product counts (R27). -/
def divFinalStep (s : State) : State := completeOk (mulMod s.la s.racc) (countMul s)

/-- DIV's last unit step, when ExpExit has asked for it (R75, R84). -/
def finishDiv (s : State) : State :=
  match s.ph with
  | .divFinal => divFinalStep s
  | .idle | .start | .expLoop => s

/-- INV (R82). -/
def execInv (s : State) : Host.Outcome State Fault Refusal :=
  issue (.legal .inv) (fun t => runEngine (invStart t)) s

/-- DIV (R83). -/
def execDiv (s : State) : Host.Outcome State Fault Refusal :=
  issue (.legal .div) (fun t => finishDiv (runEngine (divStart t))) s

end Sys2Proof.Machine
end

