-- ==== Sys2Proof/Machine/Multiplicative.lean ====
section
/-! DEFINITION. MUL (spec/41_mul.md). -/

namespace Sys2Proof.Machine

/-- `MulStart` (R71): the one product counts (R27). -/
def mulStart (s : State) : State := completeOk (mulMod s.la s.lb) (countMul s)

/-- MUL (R71): one unit step. -/
def execMul (s : State) : Host.Outcome State Fault Refusal := issue (.legal .mul) mulStart s

end Sys2Proof.Machine
end

