-- ==== Sys2Proof/Machine/Unit.lean ====
section
/-! DEFINITION. The Unit agent: `UnitStep`, one arm per phase and per latched command (R60), the illegal command's only
step (R61), and the Unit's turn in an interleaving. -/

namespace Sys2Proof.Machine

/-- The only unit step of a command whose word decoded to ILLEGAL (R61, R89). -/
def illegalStart (s : State) : State := raise .illegalCommand s

/-- A CMD write of an illegal word and its one unit step, at once (R61, R66). -/
def execIllegal (s : State) : Host.Outcome State Fault Refusal := issue .illegal illegalStart s

/-- The Start step of the latched command (R60). -/
def startStep (s : State) : State :=
  match s.lop with
  | .legal .add => addStart s
  | .legal .sub => subStart s
  | .legal .mul => mulStart s
  | .legal .inv => invStart s
  | .legal .div => divStart s
  | .legal .exp => expStart s
  | .illegal => illegalStart s

/-- `UnitStep` (R60). In phase Idle no unit step is enabled, and the state stays as it is (R104; log entry 3). -/
def unitStep (s : State) : State :=
  match s.ph with
  | .idle => s
  | .start => startStep s
  | .expLoop => if s.e = 0 then expExit s else expIterate s
  | .divFinal => divFinalStep s

/-- `n` unit steps. -/
def unitSteps : Nat → State → State
  | 0, s => s
  | n + 1, s => unitSteps n (unitStep s)

/-- A turn of the Unit: a set FAULT allows no step (R60, R101). -/
def unitTurn (s : State) : Host.Outcome State Fault Refusal :=
  match s.fault with
  | some r => .fault r
  | none => .next (unitStep s)

end Sys2Proof.Machine
end

