-- ==== Sys2Proof/Machine/Dispatch.lean ====
section
/-! DEFINITION. One arm per command: the command issued in this state and run to its completion (R59, R60, R66). -/

namespace Sys2Proof.Machine

def exec (i : Instr) (s : State) : Host.Outcome State Fault Refusal :=
  match i with
  | .add => Sys2Proof.Machine.execAdd s
  | .sub => Sys2Proof.Machine.execSub s
  | .mul => Sys2Proof.Machine.execMul s
  | .inv => Sys2Proof.Machine.execInv s
  | .div => Sys2Proof.Machine.execDiv s
  | .exp => Sys2Proof.Machine.execExp s

end Sys2Proof.Machine
end

