-- ==== Sys2Proof/Machine/Reset.lean ====
section
/-! DEFINITION. The hardware reset (spec/70_reset_and_hazards.md R107, R108). -/

namespace Sys2Proof.Machine

/-- `Reset`: the `rst` input is asserted (R107). It aborts a command in flight (R108) and leaves FAULT as it is (R101).
The registers R36 leaves unspecified hold fresh free values: log entry 10. -/
def hardReset (s : State) : State :=
  { s with
    opa := Config.unspecifiedElem s.draws
    opb := Config.unspecifiedElem (s.draws + 1)
    res := Config.unspecifiedElem (s.draws + 2)
    opaW := 0
    opbW := 0
    status := 0
    itercnt := 0
    mulcnt := 0
    ph := .idle
    lop := Op.ofWord (Config.unspecifiedCommand s.draws)
    la := Config.unspecifiedElem (s.draws + 3)
    lb := Config.unspecifiedElem (s.draws + 4)
    sq := Config.unspecifiedElem (s.draws + 5)
    racc := Config.unspecifiedElem (s.draws + 6)
    e := Config.unspecifiedElem (s.draws + 7)
    draws := s.draws + 8 }

end Sys2Proof.Machine
end

