-- ==== Sys2Proof/Machine/Step.lean ====
section
/-! DEFINITION. One step of one agent (R13, R49): the next entry of the interleaving takes effect. -/

namespace Sys2Proof.Machine

/-- One step: a Host access (R41, R42), a turn of the Unit (R60), a reset (R107), or a whole command at once (R66),
which is `exec` of the decoded command, or the illegal command where the word decodes to none (R61). -/
def step (s : State) : Host.Outcome State Fault Refusal :=
  match nextEvent s with
  | (.access a, t) => hostTurn a t
  | (.unit, t) => unitTurn t
  | (.reset, t) => .next (hardReset t)
  | (.command v, t) =>
    match decode v with
    | .ok i => exec i t
    | .error _ => execIllegal t

/-- `s` with the command word of the opcode table's bits coming next. Log entry 11. -/
def State.withFetchWord (s : State) (nbits w : Nat) : State := placeCommand (tableWord nbits w) s

end Sys2Proof.Machine
end

