-- ==== Sys2Proof/Machine/HostScript.lean ====
section
/-! DEFINITION. The host's statements as entries of the interleaving (R64, R65): each base statement is one bus access,
each pseudo-instruction its expansion. Host variables and host control flow are outside the core (R20, R64), so `wait`
is given the number of its polls (log entry 19), and the variable each `rd` names is given beside the words it has read,
which leaves the host's variables (log entry 22). -/

namespace Sys2Proof.Machine

/-- An operand register a host may write. -/
inductive OperandReg where
  | opa
  | opb
  deriving DecidableEq, Repr

/-- A 256-bit register a host may read word by word. -/
inductive WideReg where
  | opa
  | opb
  | res
  | pmod
  deriving DecidableEq, Repr

/-- `base_R` of an operand register (R64). -/
def OperandReg.baseOffset : OperandReg → Nat
  | .opa => 0x20
  | .opb => 0x40

/-- `base_R` of a wide register (R64). -/
def WideReg.baseOffset : WideReg → Nat
  | .opa => 0x20
  | .opb => 0x40
  | .res => 0x60
  | .pmod => 0x80

/-- The words of a register, in the order the expansions of R65 take them. -/
def eachWord : List (Fin 8) := [0, 1, 2, 3, 4, 5, 6, 7]

/-- A host variable, by number (R64). -/
abbrev Var := Nat

/-- `x <- v` on the host's variables, which stand with their values in rising order of their numbers (R64). -/
def assign (x : Var) (v : Word) : List (Var × Word) → List (Var × Word)
  | [] => [(x, v)]
  | (y, w) :: vars =>
    if x < y then (x, v) :: (y, w) :: vars
    else if x = y then (x, v) :: vars
    else (y, w) :: assign x v vars

/-- The host's variables after the reads `rd R -> x` that gave these words: `names` holds the variable of each read,
both lists the newest first. A read into a variable ends the variable's earlier value (R64). Log entry 22. -/
def hostVars : List Var → List Word → List (Var × Word)
  | x :: names, v :: words => assign x v (hostVars names words)
  | [], _ => []
  | _ :: _, [] => []

/-- `wr R.k, v` (R64). -/
def wr (r : OperandReg) (k : Fin 8) (v : Word) : Event :=
  .access (.write (BitVec.ofNat 8 (r.baseOffset + 4 * k.val)) 4 v)

/-- `wr CMD, v` (R64). -/
def wrCmd (v : Word) : Event := .access (.write 0x00 4 v)

/-- `rd STATUS` (R64). -/
def rdStatus : Event := .access (.read 0x04 4)

/-- `rd ITERCNT` (R64). -/
def rdItercnt : Event := .access (.read 0x08 4)

/-- `rd MULCNT` (R64). -/
def rdMulcnt : Event := .access (.read 0x0C 4)

/-- `rd R.k` (R64). -/
def rd (r : WideReg) (k : Fin 8) : Event :=
  .access (.read (BitVec.ofNat 8 (r.baseOffset + 4 * k.val)) 4)

/-- The mnemonic of a command: `wr CMD, w` with w its word (R65). -/
def mnemonic (i : Instr) : Event := wrCmd (encode i)

/-- `wr256 R, x` (R65). -/
def wr256 (r : OperandReg) (x : Elem) : List Event := eachWord.map fun k => wr r k (wordOf x k)

/-- `rd256 R` (R65). -/
def rd256 (r : WideReg) : List Event := eachWord.map (rd r)

/-- `wait` with `polls` reads of STATUS (R65). -/
def wait (polls : Nat) : List Event := List.replicate polls rdStatus

/-- `fcall M, a, b`, and `fcall INV, a` which leaves b unused (R65), with the Unit given `turns` turns before the
wait's last poll. -/
def fcall (i : Instr) (a b : Elem) (turns : Nat) : List Event :=
  wr256 .opa a
    ++ (match i with
        | .add | .sub | .mul | .div | .exp => wr256 .opb b
        | .inv => [])
    ++ [mnemonic i] ++ List.replicate turns .unit ++ wait 1

end Sys2Proof.Machine
end

