-- ==== Sys2Proof/Safety.lean ====
section
/-! DEFINITION. What statements are made of: the launch premises (R123), the end of a run and its observation (R121), the
host's duties (R112 to R116), the results and counts the spec gives each command (R68 to R85), and the invariant every
step keeps (R25, R76). The results are stated over exact numbers, apart from the machine's own operations. -/

namespace Sys2Proof.Safety

open Sys2Proof.Machine

/-! ### Notation of R11 -/

/-- `bitlen` of a number below 2^f (R11). -/
def bitlenBelow : Nat → Nat → Nat
  | 0, _ => 0
  | f + 1, n => if n = 0 then 0 else 1 + bitlenBelow f (n / 2)

/-- `popcount` of a number below 2^f (R11). -/
def popcountBelow : Nat → Nat → Nat
  | 0, _ => 0
  | f + 1, n => n % 2 + popcountBelow f (n / 2)

/-- `bitlen(e)`: the number of bits without leading zeros, with bitlen(0) = 0 (R11). -/
def bitlen (e : Elem) : Nat := bitlenBelow Config.W e.toNat

/-- `popcount(e)`: the number of set bits (R11). -/
def popcount (e : Elem) : Nat := popcountBelow Config.W e.toNat

/-! ### What each command computes and counts -/

/-- The result or the architected error of a command on the values of its operands (R61, R68, R69, R71, R77, R82, R83). -/
def fieldResult (op : Op) (a b : Nat) : Except ArchError Nat :=
  match op with
  | .legal .add => .ok ((a + b) % Config.P)
  | .legal .sub => .ok ((a + (Config.P - b % Config.P)) % Config.P)
  | .legal .mul => .ok ((a * b) % Config.P)
  | .legal .exp => .ok (a ^ b % Config.P)
  | .legal .inv =>
    if a % Config.P = 0 then .error .divisionByZero
    else .ok ((a % Config.P) ^ (Config.P - 2) % Config.P)
  | .legal .div =>
    if b % Config.P = 0 then .error .divisionByZero
    else .ok ((a * ((b % Config.P) ^ (Config.P - 2) % Config.P)) % Config.P)
  | .illegal => .error .illegalCommand

/-- ITERCNT at a command's completion (R68, R69, R71, R79, R85, R89). -/
def iterCount (op : Op) (a b : Elem) : Nat :=
  match op with
  | .legal .add | .legal .sub | .legal .mul | .illegal => 0
  | .legal .exp => bitlen b
  | .legal .inv => if a.toNat % Config.P = 0 then 0 else 256
  | .legal .div => if b.toNat % Config.P = 0 then 0 else 256

/-- MULCNT at a command's completion (R68, R69, R71, R79, R85, R89). -/
def mulCount (op : Op) (a b : Elem) : Nat :=
  match op with
  | .legal .add | .legal .sub | .illegal => 0
  | .legal .mul => 1
  | .legal .exp => bitlen b + popcount b
  | .legal .inv => if a.toNat % Config.P = 0 then 0 else 505
  | .legal .div => if b.toNat % Config.P = 0 then 0 else 506

/-- Unit steps from a command's CMD write to its completion (R119). -/
def unitStepCount (op : Op) (a b : Elem) : Nat :=
  match op with
  | .legal .add | .legal .sub | .legal .mul | .illegal => 1
  | .legal .exp => bitlen b + 2
  | .legal .inv => if a.toNat % Config.P = 0 then 1 else 258
  | .legal .div => if b.toNat % Config.P = 0 then 1 else 259

/-- `s` reports the completion of `op` on the operands `a` and `b`: STATUS, RES on success, the counters (R62). -/
def Reports (op : Op) (a b : Elem) (s : State) : Prop :=
  s.ph = .idle ∧ s.itercnt.toNat = iterCount op a b ∧ s.mulcnt.toNat = mulCount op a b ∧
  match fieldResult op a.toNat b.toNat with
  | .ok r => s.status = 0x0000000A ∧ s.res.toNat = r
  | .error .divisionByZero => s.status = 0x00000016
  | .error .illegalCommand => s.status = 0x00000026

/-! ### Launch premises and the end of a run -/

/-- `NoFault` (R123). -/
def NoFault (s : State) : Prop := s.fault = none

/-- `Idle` (R123). -/
def Idle (s : State) : Prop := s.ph = .idle ∧ s.busy = false

/-- `ResetState`: what R107 gives a value, at that value (R123). -/
def ResetState (s : State) : Prop :=
  s.opaW = 0 ∧ s.opbW = 0 ∧ s.status = 0 ∧ s.itercnt = 0 ∧ s.mulcnt = 0 ∧ s.ph = .idle

/-- `Written(R, k)` (R123). -/
def Written (r : OperandReg) (k : Fin 8) (s : State) : Prop :=
  match r with
  | .opa => marked s.opaW k = true
  | .opb => marked s.opbW k = true

/-- Every word of every operand register the command reads is written (R110, R115). -/
def OperandsWritten (op : Op) (s : State) : Prop :=
  (op.readsA = true → ∀ k, Written .opa k s) ∧ (op.readsB = true → ∀ k, Written .opb k s)

/-- A core ready for a command: no model fault, no command in flight, its operands written (R93, R113, R115). -/
def Ready (op : Op) (s : State) : Prop := NoFault s ∧ s.busy = false ∧ OperandsWritten op s

/-- A command on the operands `a` and `b` completes with the result `r`, from every state that is ready for it. -/
def Computes (i : Instr) (a b r : Elem) : Prop :=
  ∀ s, Ready (.legal i) s → s.opa = a → s.opb = b →
    ∃ t, exec i s = .next t ∧ t.fault = none ∧ t.status = 0x0000000A ∧ t.res = r

/-- A command on the operands `a` and `b` completes with DivisionByZero, from every state that is ready for it. -/
def DividesByZero (i : Instr) (a b : Elem) : Prop :=
  ∀ s, Ready (.legal i) s → s.opa = a → s.opb = b →
    ∃ t, exec i s = .next t ∧ t.fault = none ∧ t.status = 0x00000016 ∧ t.res = s.res

/-- The end of a run: nothing is still to come, FAULT is empty, no command is in flight (R121). -/
def Final (s : State) : Prop := s.agenda = [] ∧ NoFault s ∧ s.ph = .idle

/-- What is observed at the end of a run (R121). -/
structure Observation where
  status : Word
  itercnt : Word
  mulcnt : Word
  /-- RES, only if RVALID = 1. -/
  res : Option Elem
  /-- OPA, only the written words. -/
  opa : List (Option Word)
  /-- OPB, only the written words. -/
  opb : List (Option Word)
  /-- The host's variables. -/
  vars : List (Var × Word)
  deriving DecidableEq, Repr

/-- The observation of a state (R121). `names` is the host program's: the variable that each of its reads names, the
newest first (log entry 22). The words read show only as the variables they leave, so a poll that is read over does not
show. -/
def observe (names : List Var) (s : State) : Observation where
  status := s.status
  itercnt := s.itercnt
  mulcnt := s.mulcnt
  res := if s.rvalid then some s.res else none
  opa := eachWord.map fun k => if marked s.opaW k then some (wordOf s.opa k) else none
  opb := eachWord.map fun k => if marked s.opbW k then some (wordOf s.opb k) else none
  vars := hostVars names s.replies

/-! ### The host's duties -/

/-- The register map lists this register for this direction (R40, R112). -/
def listed : Access → Bool
  | .read off _ =>
    match regAt off with
    | .status | .itercnt | .mulcnt | .opa _ | .opb _ | .res _ | .pmod _ => true
    | .cmd | .reserved => false
  | .write off _ _ =>
    match regAt off with
    | .cmd | .opa _ | .opb _ => true
    | .status | .itercnt | .mulcnt | .res _ | .pmod _ | .reserved => false

/-- The duties of R112 to R116 for one access: a listed access of the one form; a CMD write only when idle and with
its operands written; a read of RES only when it is valid; a read of an operand word only when it is written. -/
def DutyKept (a : Access) (s : State) : Prop :=
  a.wellFormed = true ∧ listed a = true ∧
  match a with
  | .write off _ v => regAt off = .cmd → s.busy = false ∧ OperandsWritten (Op.ofWord v) s
  | .read off _ =>
    (∀ k, regAt off = .res k → s.rvalid = true) ∧
    (∀ k, regAt off = .opa k → Written .opa k s) ∧
    (∀ k, regAt off = .opb k → Written .opb k s)

/-- What a host may do at any time, a command in flight or not: read STATUS, a counter or PMOD, write an operand word
(R117, R122). A turn of the Unit stands beside them. -/
def harmless : Event → Bool
  | .unit => true
  | .access a =>
    a.wellFormed &&
      match a with
      | .read off _ =>
        match regAt off with
        | .status | .itercnt | .mulcnt | .pmod _ => true
        | .cmd | .opa _ | .opb _ | .res _ | .reserved => false
      | .write off _ _ =>
        match regAt off with
        | .opa _ | .opb _ => true
        | .cmd | .status | .itercnt | .mulcnt | .res _ | .pmod _ | .reserved => false
  | .command _ => false
  | .reset => false

/-- How many turns of the Unit stand in a list of events. -/
def unitTurns : List Event → Nat
  | [] => 0
  | .unit :: evs => unitTurns evs + 1
  | .access _ :: evs => unitTurns evs
  | .command _ :: evs => unitTurns evs
  | .reset :: evs => unitTurns evs

/-! ### The invariant -/

/-- The base and the exponent of the engine run of the latched command, if it runs the engine (R77, R82, R83). -/
def engineRun (s : State) : Option (Elem × Elem) :=
  match s.lop with
  | .legal .exp => some (s.la, s.lb)
  | .legal .inv => if s.la.toNat % Config.P = 0 then none else some (s.la, fermatExponent)
  | .legal .div => if s.lb.toNat % Config.P = 0 then none else some (s.lb, fermatExponent)
  | .legal .add | .legal .sub | .legal .mul | .illegal => none

/-- The loop invariant of R76 with the counts of R79, for an engine run on base `g` and exponent `x`. -/
def EngineInv (g x : Elem) (s : State) : Prop :=
  s.sq.toNat < Config.P ∧ s.racc.toNat < Config.P ∧
  (s.racc.toNat * s.sq.toNat ^ s.e.toNat) % Config.P = (g.toNat % Config.P) ^ x.toNat % Config.P ∧
  s.e = x >>> s.itercnt.toNat ∧
  s.itercnt.toNat + bitlen s.e = bitlen x ∧
  s.mulcnt.toNat + (bitlen s.e + popcount s.e) = bitlen x + popcount x

/-- What holds of the phase the unit is in (R25, R29, R30, R76). -/
def MachineInv (s : State) : Prop :=
  match s.ph with
  | .idle =>
    s.status = 0x00000000 ∧ s.itercnt = 0 ∧ s.mulcnt = 0 ∨ Reports s.lop s.la s.lb s
  | .start => s.status = 0x00000001 ∧ s.itercnt = 0 ∧ s.mulcnt = 0
  | .expLoop => s.status = 0x00000001 ∧ ∃ g x, engineRun s = some (g, x) ∧ EngineInv g x s
  | .divFinal =>
    s.status = 0x00000001 ∧ s.lop = .legal .div ∧ s.e = 0 ∧
      ∃ g x, engineRun s = some (g, x) ∧ EngineInv g x s

end Sys2Proof.Safety
end

