-- ==== Sys2Proof/Certificates/Slice0/Obligations.lean ====
section
/-! DEFINITION. The statements for the provers. A statement whose title says it is stated formalises the numbered rules
it names; the others rest on the sections they name. A free value (`Config.draw`, `Config.unspecifiedElem`,
`Config.unspecifiedCommand`) and `Config.base` stand for every value: no statement rests on one of them. -/

open Sys2Proof Sys2Proof.Machine Sys2Proof.Safety

/-! ## Encoding -/

/-- Sample words of the opcode map, written out from R58: six legal words, OP 6 and 7, a RSVD bit beside a legal OP. -/
def Obligations.SampleCommandWordsDecode : Prop :=
  decode 0x00000000 = .ok .add ∧ decode 0x00000001 = .ok .sub ∧ decode 0x00000002 = .ok .mul ∧
  decode 0x00000003 = .ok .inv ∧ decode 0x00000004 = .ok .div ∧ decode 0x00000005 = .ok .exp ∧
  decode 0x00000006 = .error .reservedOpcode ∧ decode 0x00000007 = .error .reservedOpcode ∧
  decode 0x00000008 = .error .reservedBits ∧ decode 0x80000005 = .error .reservedBits

/-- Decoding and encoding agree, both ways, on words and on platform bytes (R55, R58, R61, R44). -/
def Obligations.DecodeAndEncodeAgree : Prop :=
  (∀ (i : Instr) (v : Word), decode v = .ok i ↔ v = encode i) ∧
  (∀ (i : Instr) (bs : List Byte), decodeBytes bs = .ok i ↔ bs = encodeBytes i)

/-- R61: which words are legal, and what an illegal one does: it starts a command that reads no operand and sets no
counter, and its first unit step completes it with IllegalCommand. -/
def Obligations.IllegalWordsStartACommandThatFails : Prop :=
  (∀ v : Word, (∃ i, decode v = .ok i) ↔ v.extractLsb' 3 29 = 0 ∧ (v.extractLsb' 0 3).toNat ≤ 5) ∧
  (∀ v : Word, (∃ i, decode v = .ok i) ↔ v ∈ [0, 1, 2, 3, 4, 5]) ∧
  (decode 0 = .ok .add ∧ decode 1 = .ok .sub ∧ decode 2 = .ok .mul ∧ decode 3 = .ok .inv ∧
    decode 4 = .ok .div ∧ decode 5 = .ok .exp) ∧
  (∀ (v : Word) (s : State), (∀ i, decode v ≠ .ok i) → s.busy = false →
    commandWrite v s =
      { s with lop := .illegal, status := 0x00000001, itercnt := 0, mulcnt := 0, ph := .start } ∧
    unitStep (commandWrite v s) =
      { s with lop := .illegal, status := 0x00000026, itercnt := 0, mulcnt := 0, ph := .idle })

/-! ## A step -/

/-- A step whose next entry is a command word runs the decoded command on the state without that entry; a word that
decodes to no command runs the illegal command. The entry is the model's own (log entries 1 and 4). -/
def Obligations.StepRunsTheDecodedCommand : Prop :=
  ∀ (s : State) (v : Word) (rest : List Event), s.agenda = .command v :: rest →
    (∀ i, decode v = .ok i → step s = exec i { s with agenda := rest }) ∧
    ((∀ i, decode v ≠ .ok i) → step s = execIllegal { s with agenda := rest })

/-- A step whose next entry is an access, a turn of the Unit or a reset does that; with no entry left the Unit has its
turn. The entries are the model's own (log entries 1, 2 and 3). -/
def Obligations.StepTakesTheNextTurn : Prop :=
  ∀ (s : State) (rest : List Event),
    (∀ a, s.agenda = .access a :: rest → s.fault = none →
      step s = .next (access a { s with agenda := rest })) ∧
    (s.agenda = .unit :: rest → s.fault = none → step s = .next (unitStep { s with agenda := rest })) ∧
    (s.agenda = .reset :: rest → step s = .next (hardReset { s with agenda := rest })) ∧
    (s.agenda = [] → s.fault = none → step s = .next (unitStep s))

/-! ## Reset -/

/-- R109, which the spec derives from R21, R22 and R36: after a reset, at launch or later, STATUS, the counters and
PMOD are readable at these values, and every read of a word of OPA, OPB or RES faults, until the word is written or
the result computed. -/
def Obligations.OnlyTheseAreReadableAfterReset : Prop :=
  (∀ (s t : State) (k : Fin 8), (s = State.reset ∨ s = hardReset t) →
    readAnswer 0x04 4 s = .value 0 ∧ readAnswer 0x08 4 s = .value 0 ∧ readAnswer 0x0C 4 s = .value 0 ∧
    readAnswer (BitVec.ofNat 8 (0x80 + 4 * k)) 4 s = .value (wordOf (BitVec.ofNat 256 Config.P) k) ∧
    readAnswer (BitVec.ofNat 8 (0x20 + 4 * k)) 4 s = .fault .unwrittenRead ∧
    readAnswer (BitVec.ofNat 8 (0x40 + 4 * k)) 4 s = .fault .unwrittenRead ∧
    readAnswer (BitVec.ofNat 8 (0x60 + 4 * k)) 4 s = .fault .invalidResultRead) ∧
  (∀ (u : State) (k : Fin 8),
    (readAnswer (BitVec.ofNat 8 (0x20 + 4 * k)) 4 u = .fault .unwrittenRead ↔ ¬ Written .opa k u) ∧
    (readAnswer (BitVec.ofNat 8 (0x40 + 4 * k)) 4 u = .fault .unwrittenRead ↔ ¬ Written .opb k u) ∧
    (readAnswer (BitVec.ofNat 8 (0x60 + 4 * k)) 4 u = .fault .invalidResultRead ↔ u.rvalid = false))

/-- A reset at any time gives what R107 writes, aborts a command in flight, and leaves FAULT and what is still to come
as they are. What the unspecified registers hold then is not said. -/
def Obligations.ResetAbortsTheCommandInFlight : Prop :=
  ∀ (s : State) (rest : List Event), s.agenda = .reset :: rest →
    ∃ t, step s = .next t ∧ ResetState t ∧ Idle t ∧ t.fault = s.fault ∧ t.agenda = rest ∧
      t.replies = s.replies ∧ t.done = false ∧ t.err = false ∧ t.rvalid = false

/-- The invariant holds at launch. It is a statement about the launch state of the model, whose unspecified registers
are the model's choice (log entry 9); the invariant says nothing about them there. -/
def Obligations.InvariantHoldsAtReset : Prop := MachineInv State.reset

/-! ## The invariant -/

/-- Every step of every agent keeps the invariant: the phase and STATUS agree, the engine's accumulators keep R76's
relation and R79's counts, and a finished command's report is right for the operands it latched. -/
def Obligations.EveryStepKeepsTheInvariant : Prop :=
  ∀ s t : State, MachineInv s → step s = .next t → MachineInv t

/-- R25, which the spec derives from R24, R59, R62 and R107: the STATUS rules (a) to (e) and the five words, in every
state that meets the invariant; and for (d) that no step but a reset leads to BUSY = DONE = 0 from a state that has
one of them set. -/
def Obligations.StatusWordObeysItsRules : Prop :=
  (∀ s : State, MachineInv s →
    (s.busy = true → s.done = false ∧ s.err = false ∧ s.rvalid = false ∧ s.errcode = 0) ∧
    (s.err = true ↔ s.errcode ≠ 0) ∧
    (s.done = true → s.busy = false ∧ (s.err != s.rvalid) = true) ∧
    (s.busy = false → s.done = false → s.err = false ∧ s.rvalid = false) ∧
    (s.busy = true ↔ s.ph ≠ .idle) ∧
    s.status ∈ [0x00000000, 0x00000001, 0x0000000A, 0x00000016, 0x00000026]) ∧
  (∀ s t : State, MachineInv s → step s = .next t → t.busy = false → t.done = false →
    (s.busy = false ∧ s.done = false) ∨ ∃ rest, s.agenda = .reset :: rest)

/-- The counters stay within their maxima, so they never wrap, and a valid result is canonical. -/
def Obligations.CountersNeverWrapAndResultsAreCanonical : Prop :=
  ∀ s : State, MachineInv s →
    s.itercnt.toNat ≤ 256 ∧ s.mulcnt.toNat ≤ 512 ∧ (s.rvalid = true → s.res.toNat < Config.P)

/-! ## The commands -/

/-- R68: ADD from every state that is ready for it, the whole next state; its word; its one unit step; the corner
cases. `exec` is the CMD write with its unit step at once (R66; log entry 4). -/
def Obligations.AddGivesTheSumModP : Prop :=
  (∀ s : State, Ready (.legal .add) s →
    exec .add s = .next { s with
      lop := .legal .add, la := s.opa, lb := s.opb
      res := BitVec.ofNat 256 ((s.opa.toNat + s.opb.toNat) % Config.P)
      status := 0x0000000A, itercnt := 0, mulcnt := 0, ph := .idle } ∧
    exec .add s = .next (unitStep (commandWrite 0x00000000 s)) ∧
    (commandWrite 0x00000000 s).ph ≠ .idle) ∧
  (∀ a : Elem, Computes .add a 0 (BitVec.ofNat 256 (a.toNat % Config.P)) ∧
    Computes .add 0 a (BitVec.ofNat 256 (a.toNat % Config.P)) ∧
    Computes .add a a (BitVec.ofNat 256 (2 * a.toNat % Config.P))) ∧
  Computes .add (BitVec.ofNat 256 Config.P) 0 0 ∧
  Computes .add (BitVec.allOnes 256) (BitVec.allOnes 256) 0x2000007A0 ∧
  Computes .add (BitVec.ofNat 256 (Config.P - 1)) 2 1

/-- R69: SUB from every state that is ready for it, the whole next state; its word; its one unit step; the corner
cases and the law `add(a, sub(0, a)) == 0`. `exec` is as in the statement of ADD. -/
def Obligations.SubGivesTheDifferenceModP : Prop :=
  (∀ s : State, Ready (.legal .sub) s →
    exec .sub s = .next { s with
      lop := .legal .sub, la := s.opa, lb := s.opb
      res := BitVec.ofNat 256 ((s.opa.toNat + (Config.P - s.opb.toNat % Config.P)) % Config.P)
      status := 0x0000000A, itercnt := 0, mulcnt := 0, ph := .idle } ∧
    exec .sub s = .next (unitStep (commandWrite 0x00000001 s)) ∧
    (commandWrite 0x00000001 s).ph ≠ .idle) ∧
  (∀ a b r : Elem, Computes .sub a b r ↔ (r.toNat : Int) = ((a.toNat : Int) - b.toNat) % Config.P) ∧
  (∀ a : Elem, Computes .sub a 0 (BitVec.ofNat 256 (a.toNat % Config.P)) ∧
    Computes .sub a (BitVec.ofNat 256 Config.P) (BitVec.ofNat 256 (a.toNat % Config.P)) ∧
    Computes .sub a a 0) ∧
  Computes .sub 3 5 (BitVec.ofNat 256 (Config.P - 2)) ∧
  Computes .sub 0 (BitVec.allOnes 256) (BitVec.ofNat 256 (Config.P - 0x1000003D0)) ∧
  Computes .sub (BitVec.allOnes 256) 0 0x1000003D0 ∧
  Computes .sub 0 1 (BitVec.ofNat 256 (Config.P - 1)) ∧
  (∀ a : Elem, ∃ n, Computes .sub 0 a n ∧ Computes .add a n 0)

/-- R71: MUL from every state that is ready for it, the whole next state; its word; its one unit step; the corner
cases. `exec` is as in the statement of ADD. -/
def Obligations.MulGivesTheProductModP : Prop :=
  (∀ s : State, Ready (.legal .mul) s →
    exec .mul s = .next { s with
      lop := .legal .mul, la := s.opa, lb := s.opb
      res := BitVec.ofNat 256 ((s.opa.toNat * s.opb.toNat) % Config.P)
      status := 0x0000000A, itercnt := 0, mulcnt := 1, ph := .idle } ∧
    exec .mul s = .next (unitStep (commandWrite 0x00000002 s)) ∧
    (commandWrite 0x00000002 s).ph ≠ .idle) ∧
  (∀ b : Elem, Computes .mul 0 b 0 ∧ Computes .mul 1 b (BitVec.ofNat 256 (b.toNat % Config.P)) ∧
    Computes .mul b 1 (BitVec.ofNat 256 (b.toNat % Config.P)) ∧
    Computes .mul b b (BitVec.ofNat 256 (b.toNat ^ 2 % Config.P)) ∧
    Computes .mul (BitVec.ofNat 256 Config.P) b 0 ∧ Computes .mul b (BitVec.ofNat 256 Config.P) 0) ∧
  Computes .mul (BitVec.ofNat 256 (Config.P - 1)) (BitVec.ofNat 256 (Config.P - 1)) 1 ∧
  Computes .mul (BitVec.ofNat 256 (2 ^ 128)) (BitVec.ofNat 256 (2 ^ 128)) 0x1000003D1 ∧
  Computes .mul (BitVec.allOnes 256) (BitVec.allOnes 256) 0x1000007A0000E8900 ∧
  Computes .mul 3 7 0x15

/-- R77: EXP from every state that is ready for it: the power, the counts of the exponent's bits, STATUS, and what it
leaves alone; its Start step and the way its unit steps take; the corner cases. 0^0 = 1 is the rule's convention, as
Nat's power has it. `exec` is the CMD write with its unit steps at once (R66; log entry 4). -/
def Obligations.ExpGivesThePowerModP : Prop :=
  (∀ s : State, Ready (.legal .exp) s →
    (∃ t, exec .exp s = .next t ∧ t.fault = none ∧
      t.res.toNat = s.opa.toNat ^ s.opb.toNat % Config.P ∧
      t.status = 0x0000000A ∧ t.itercnt.toNat = bitlen s.opb ∧
      t.mulcnt.toNat = bitlen s.opb + popcount s.opb ∧ t.ph = .idle ∧
      t.lop = .legal .exp ∧ t.la = s.opa ∧ t.lb = s.opb ∧
      t.opa = s.opa ∧ t.opb = s.opb ∧ t.opaW = s.opaW ∧ t.opbW = s.opbW) ∧
    unitStep (commandWrite 0x00000005 s) = { s with
      lop := .legal .exp, la := s.opa, lb := s.opb
      sq := BitVec.ofNat 256 (s.opa.toNat % Config.P), racc := 1, e := s.opb
      status := 0x00000001, itercnt := 0, mulcnt := 0, ph := .expLoop } ∧
    (∀ n, 1 ≤ n → n ≤ bitlen s.opb + 1 → (unitSteps n (commandWrite 0x00000005 s)).ph = .expLoop) ∧
    exec .exp s = .next (unitSteps (bitlen s.opb + 2) (commandWrite 0x00000005 s))) ∧
  (∀ a b : Elem, Computes .exp a 0 1 ∧ Computes .exp a 1 (BitVec.ofNat 256 (a.toNat % Config.P)) ∧
    (a.toNat % Config.P = 0 → b ≠ 0 → Computes .exp a b 0)) ∧
  (bitlen 1 = 1 ∧ popcount 1 = 1 ∧ bitlen (BitVec.allOnes 256) = 256 ∧ popcount (BitVec.allOnes 256) = 256) ∧
  Computes .exp 2 256 0x1000003D1 ∧ bitlen 256 = 9 ∧ popcount 256 = 1

/-- R82: INV from every state that is ready for it, OPB unwritten or not: the inverse of a non-zero residue, the error
of a zero residue; its Start step and the way its unit steps take; the corner cases. `exec` is the CMD write with its
unit steps at once (R66; log entry 4). -/
def Obligations.InvGivesTheFermatInverse : Prop :=
  (∀ s : State, Ready (.legal .inv) s → s.opa.toNat % Config.P ≠ 0 →
    (∃ t, exec .inv s = .next t ∧ t.fault = none ∧
      t.res.toNat = (s.opa.toNat % Config.P) ^ (Config.P - 2) % Config.P ∧
      t.status = 0x0000000A ∧ t.itercnt = 256 ∧ t.mulcnt = 505 ∧ t.ph = .idle ∧
      t.lop = .legal .inv ∧ t.la = s.opa ∧ t.lb = s.lb ∧
      t.opa = s.opa ∧ t.opb = s.opb ∧ t.opaW = s.opaW ∧ t.opbW = s.opbW) ∧
    unitStep (commandWrite 0x00000003 s) = { s with
      lop := .legal .inv, la := s.opa
      sq := BitVec.ofNat 256 (s.opa.toNat % Config.P), racc := 1, e := BitVec.ofNat 256 (Config.P - 2)
      status := 0x00000001, itercnt := 0, mulcnt := 0, ph := .expLoop } ∧
    (∀ n, 1 ≤ n → n ≤ 257 → (unitSteps n (commandWrite 0x00000003 s)).ph = .expLoop) ∧
    exec .inv s = .next (unitSteps 258 (commandWrite 0x00000003 s))) ∧
  (∀ s : State, Ready (.legal .inv) s → s.opa.toNat % Config.P = 0 →
    exec .inv s = .next { s with
      lop := .legal .inv, la := s.opa, status := 0x00000016, itercnt := 0, mulcnt := 0, ph := .idle }) ∧
  (∀ b : Elem, Computes .inv 1 b 1 ∧
    Computes .inv (BitVec.ofNat 256 (Config.P - 1)) b (BitVec.ofNat 256 (Config.P - 1)) ∧
    Computes .inv (BitVec.ofNat 256 (Config.P + 1)) b 1 ∧
    (∃ r, Computes .inv (BitVec.allOnes 256) b r ∧ Computes .inv 0x1000003D0 b r) ∧
    DividesByZero .inv 0 b ∧ DividesByZero .inv (BitVec.ofNat 256 Config.P) b ∧
    Computes .inv 2 b (BitVec.ofNat 256 ((Config.P + 1) / 2)) ∧
    (∀ a : Elem, a.toNat % Config.P ≠ 0 → ∃ r, r ≠ 0 ∧ Computes .inv a b r))

/-- R83: DIV from every state that is ready for it: the field quotient by a non-zero residue, the error of a zero
residue; its Start step and the way its unit steps take; the corner cases. `exec` is the CMD write with its unit steps
at once (R66; log entry 4). -/
def Obligations.DivGivesTheFieldQuotient : Prop :=
  (∀ s : State, Ready (.legal .div) s → s.opb.toNat % Config.P ≠ 0 →
    (∃ t, exec .div s = .next t ∧ t.fault = none ∧
      t.res.toNat = (s.opa.toNat * ((s.opb.toNat % Config.P) ^ (Config.P - 2) % Config.P)) % Config.P ∧
      t.status = 0x0000000A ∧ t.itercnt = 256 ∧ t.mulcnt = 506 ∧ t.ph = .idle ∧
      t.lop = .legal .div ∧ t.la = s.opa ∧ t.lb = s.opb ∧
      t.opa = s.opa ∧ t.opb = s.opb ∧ t.opaW = s.opaW ∧ t.opbW = s.opbW) ∧
    unitStep (commandWrite 0x00000004 s) = { s with
      lop := .legal .div, la := s.opa, lb := s.opb
      sq := BitVec.ofNat 256 (s.opb.toNat % Config.P), racc := 1, e := BitVec.ofNat 256 (Config.P - 2)
      status := 0x00000001, itercnt := 0, mulcnt := 0, ph := .expLoop } ∧
    (∀ n, 1 ≤ n → n ≤ 257 → (unitSteps n (commandWrite 0x00000004 s)).ph = .expLoop) ∧
    (unitSteps 258 (commandWrite 0x00000004 s)).ph = .divFinal ∧
    exec .div s = .next (unitSteps 259 (commandWrite 0x00000004 s))) ∧
  (∀ s : State, Ready (.legal .div) s → s.opb.toNat % Config.P = 0 →
    exec .div s = .next { s with
      lop := .legal .div, la := s.opa, lb := s.opb
      status := 0x00000016, itercnt := 0, mulcnt := 0, ph := .idle }) ∧
  (∀ a : Elem, Computes .div a 1 (BitVec.ofNat 256 (a.toNat % Config.P)) ∧
    (a.toNat % Config.P ≠ 0 → Computes .div a a 1 ∧ Computes .div 0 a 0)) ∧
  DividesByZero .div 5 0 ∧ DividesByZero .div 5 (BitVec.ofNat 256 Config.P) ∧
  Computes .div (BitVec.allOnes 256) 1 0x1000003D0 ∧
  (∀ b : Elem, ∃ r, r ≠ 0 ∧ Computes .inv 2 b r ∧ Computes .div 1 2 r) ∧
  Computes .div 6 3 2

/-- R88 with the zero test of R81: DivisionByZero exactly on the values 0 and P of the inverted operand, raised in the
Start step; the whole next state, in which RES keeps its bits and reading it faults. -/
def Obligations.DivisionByZeroIsReported : Prop :=
  (∀ x : Elem, x.toNat % Config.P = 0 ↔ x = 0 ∨ x = BitVec.ofNat 256 Config.P) ∧
  (∀ s : State, Ready (.legal .inv) s → s.opa.toNat % Config.P = 0 →
    exec .inv s = .next { s with
      lop := .legal .inv, la := s.opa, status := 0x00000016, itercnt := 0, mulcnt := 0, ph := .idle } ∧
    exec .inv s = .next (unitStep (commandWrite 0x00000003 s))) ∧
  (∀ s : State, Ready (.legal .div) s → s.opb.toNat % Config.P = 0 →
    exec .div s = .next { s with
      lop := .legal .div, la := s.opa, lb := s.opb
      status := 0x00000016, itercnt := 0, mulcnt := 0, ph := .idle } ∧
    exec .div s = .next (unitStep (commandWrite 0x00000004 s))) ∧
  (∀ (s : State) (k : Fin 8), s.status = 0x00000016 →
    s.done = true ∧ s.err = true ∧ s.errcode = 1 ∧ s.rvalid = false ∧
    readAnswer (BitVec.ofNat 8 (0x60 + 4 * k)) 4 s = .fault .invalidResultRead)

/-- R89: an illegal word's report; the word is not recorded, no operand is read and no mark is checked. -/
def Obligations.IllegalCommandIsReported : Prop :=
  (∀ s : State, s.fault = none → s.busy = false →
    execIllegal s = .next { s with
      lop := .illegal, status := 0x00000026, itercnt := 0, mulcnt := 0, ph := .idle } ∧
    ∀ v : Word, (∀ i, decode v ≠ .ok i) → execIllegal s = .next (unitStep (commandWrite v s))) ∧
  (∀ s : State, s.status = 0x00000026 →
    s.done = true ∧ s.err = true ∧ s.errcode = 2 ∧ s.rvalid = false) ∧
  (∀ (v w : Word) (s : State), (∀ i, decode v ≠ .ok i) → (∀ i, decode w ≠ .ok i) →
    commandWrite v s = commandWrite w s) ∧
  (∀ (v : Word) (s : State) (x y : Elem), (∀ i, decode v ≠ .ok i) → s.busy = false →
    commandWrite v { s with opa := x, opb := y, opaW := 0, opbW := 0 } =
      { commandWrite v s with opa := x, opb := y, opaW := 0, opbW := 0 })

/-- The frame of the six commands: the operand registers, their marks and the model's own fields stay; ADD, SUB and MUL
leave the engine's registers; RES changes only on success; LB stays where OPB is not read; every read of the window but
of STATUS, the counters and RES answers as before. A command turned away by a model fault changes FAULT alone. -/
def Obligations.CommandsLeaveTheRestUnchanged : Prop :=
  ∀ (i : Instr) (s t : State), exec i s = .next t →
    t.opa = s.opa ∧ t.opb = s.opb ∧ t.opaW = s.opaW ∧ t.opbW = s.opbW ∧
    t.agenda = s.agenda ∧ t.replies = s.replies ∧ t.draws = s.draws ∧
    (∀ r, t.fault = some r → t = { s with fault := some r }) ∧
    (i ∈ [.add, .sub, .mul] → t.sq = s.sq ∧ t.racc = s.racc ∧ t.e = s.e) ∧
    (t.status ≠ 0x0000000A → t.res = s.res) ∧
    (i = .inv → t.lb = s.lb) ∧
    (∀ off size,
      (∀ k, regAt off ≠ .res k) → regAt off ≠ .status → regAt off ≠ .itercnt → regAt off ≠ .mulcnt →
        readAnswer off size t = readAnswer off size s)

/-- No step of the machine writes an operand register but a host's write of it and a reset, and none writes RES but a
successful completion, with a canonical value, and a reset. -/
def Obligations.OnlyTheseStepsWriteOperandsAndResult : Prop :=
  ∀ s t : State, MachineInv s → step s = .next t → (∀ rest, s.agenda ≠ .reset :: rest) →
    ((∀ off size v rest, s.agenda ≠ .access (.write off size v) :: rest) →
      t.opa = s.opa ∧ t.opb = s.opb ∧ t.opaW = s.opaW ∧ t.opbW = s.opbW) ∧
    (t.res = s.res ∨ t.status = 0x0000000A ∧ t.ph = .idle ∧ t.res.toNat < Config.P)

/-! ## The engine -/

/-- R76, which the spec derives from R73 and R74: the loop invariant after ExpInit and after every iteration, and the
result at the exit. -/
def Obligations.EngineLoopInvariant : Prop :=
  ∀ (g x : Elem) (s : State) (n : Nat), s.itercnt = 0 → n ≤ bitlen x →
    let t := expIterate^[n] (expInit g x s)
    (t.racc.toNat * t.sq.toNat ^ t.e.toNat) % Config.P = (g.toNat % Config.P) ^ x.toNat % Config.P ∧
    t.racc.toNat < Config.P ∧ t.sq.toNat < Config.P ∧
    t.itercnt.toNat = n ∧ t.e = x >>> n ∧
    (t.e = 0 ↔ n = bitlen x) ∧
    (t.e = 0 → t.racc.toNat = g.toNat ^ x.toNat % Config.P)

/-- R79, which the spec derives from R73 to R75: the exact counts of an engine run with exponent `x`, and the source's
test point. -/
def Obligations.EngineCountsItsOperations : Prop :=
  (∀ (g x : Elem) (s : State), s.itercnt = 0 → s.mulcnt = 0 →
    let t := expIterate^[bitlen x] (expInit g x s)
    t.itercnt.toNat = bitlen x ∧ t.mulcnt.toNat = bitlen x + popcount x ∧ t.e = 0 ∧
    (∀ n < bitlen x, (expIterate^[n] (expInit g x s)).e ≠ 0)) ∧
  (∀ x : Elem, bitlen x ≤ 256 ∧ popcount x ≤ 256 ∧ popcount x ≤ bitlen x) ∧
  (∀ x : Elem, ∀ n, bitlen x ≤ n ↔ x.toNat < 2 ^ n) ∧
  bitlen (BitVec.ofNat 256 (2 ^ 200)) = 201 ∧ popcount (BitVec.ofNat 256 (2 ^ 200)) = 1

/-- R74: one iteration: the conditional multiply with SQ from before the squaring, the squaring, the shift, the
counts; nothing else changes. -/
def Obligations.IterationMultipliesSquaresAndShifts : Prop :=
  ∀ s : State, s.ph = .expLoop → s.e ≠ 0 →
    unitStep s = { s with
      racc := if s.e.getLsbD 0 = true then BitVec.ofNat 256 (s.racc.toNat * s.sq.toNat % Config.P) else s.racc
      sq := BitVec.ofNat 256 (s.sq.toNat * s.sq.toNat % Config.P)
      e := s.e >>> 1
      mulcnt := if s.e.getLsbD 0 = true then s.mulcnt + 2 else s.mulcnt + 1
      itercnt := s.itercnt + 1 }

/-- R75 and R84: the exit of the loop and DIV's final step. -/
def Obligations.LoopExitAndFinalProduct : Prop :=
  (∀ s : State, s.ph = .expLoop → s.e = 0 →
    (s.lop = .legal .exp ∨ s.lop = .legal .inv →
      unitStep s = { s with res := s.racc, status := 0x0000000A, ph := .idle }) ∧
    (s.lop = .legal .div → unitStep s = { s with ph := .divFinal })) ∧
  (∀ s : State, s.ph = .divFinal →
    unitStep s = { s with
      res := BitVec.ofNat 256 (s.la.toNat * s.racc.toNat % Config.P)
      mulcnt := s.mulcnt + 1, status := 0x0000000A, ph := .idle }) ∧
  (∀ s : State, MachineInv s → s.ph = .expLoop → s.lop = .legal .exp ∨ s.lop = .legal .inv ∨ s.lop = .legal .div) ∧
  (∀ s : State, MachineInv s → s.ph ≠ .divFinal → (unitStep s).ph = .divFinal →
    s.ph = .expLoop ∧ s.e = 0 ∧ s.lop = .legal .div)

/-- R66, which the spec derives from R28, R32, R59, R60 and R62: running a command at once gives what its unit steps
give, and until the last of them no host read tells where the Unit is: STATUS reads 0x01, the counters are draws, RES
faults. -/
def Obligations.CollapseAgreesWithUnitSteps : Prop :=
  ∀ (i : Instr) (s : State), Ready (.legal i) s →
    exec i s = .next (unitSteps (unitStepCount (.legal i) s.opa s.opb) (commandWrite (encode i) s)) ∧
    ∀ n < unitStepCount (.legal i) s.opa s.opb, ∀ k : Fin 8,
      let t := unitSteps n (commandWrite (encode i) s)
      readAnswer 0x04 4 t = .value 0x00000001 ∧ readAnswer 0x08 4 t = .draw ∧ readAnswer 0x0C 4 t = .draw ∧
      readAnswer (BitVec.ofNat 8 (0x60 + 4 * k)) 4 t = .fault .invalidResultRead ∧
      ∀ off size, readAnswer off size t = readAnswer off size (commandWrite (encode i) s)

/-- R119, which the spec derives from R60, R79 and R85: the exact number of unit steps from a CMD write to its
completion, an illegal word's too, at most 259. -/
def Obligations.CommandsTakeTheseUnitSteps : Prop :=
  ∀ (v : Word) (s : State), Ready (Op.ofWord v) s →
    (∀ n, (unitSteps n (commandWrite v s)).ph = .idle ↔ unitStepCount (Op.ofWord v) s.opa s.opb ≤ n) ∧
    Reports (Op.ofWord v) s.opa s.opb
      (unitSteps (unitStepCount (Op.ofWord v) s.opa s.opb) (commandWrite v s)) ∧
    unitStepCount (Op.ofWord v) s.opa s.opb ≤ 259

/-! ## Agents -/

/-- Whatever the host does meanwhile that it may do at any time, and however the turns fall, a started command completes
once the Unit has had its turns, with what the command run at once reports. -/
def Obligations.EveryInterleavingGivesTheSameReport : Prop :=
  ∀ (i : Instr) (s u : State) (evs : List Event), Ready (.legal i) s → exec i s = .next u →
    (∀ ev ∈ evs, harmless ev = true) → unitStepCount (.legal i) s.opa s.opb ≤ unitTurns evs →
    ∃ t, core.run (evs.length + 1) { s with agenda := mnemonic i :: evs } = .next t ∧
      t.agenda = [] ∧ t.fault = none ∧ t.ph = .idle ∧
      t.status = u.status ∧ t.res = u.res ∧ t.itercnt = u.itercnt ∧ t.mulcnt = u.mulcnt

/-- From every state that meets the invariant, with no model fault and nothing more to come from outside, the run ends
after at most 259 turns of the Unit. -/
def Obligations.EveryCommandCompletes : Prop :=
  ∀ s : State, MachineInv s → s.fault = none → s.agenda = [] →
    ∃ n ≤ 259, ∃ t, core.run n s = .next t ∧ Final t

/-- The unit's work reads neither operand register: it goes the same way whatever the host writes there. -/
def Obligations.UnitStepsIgnoreTheOperandRegisters : Prop :=
  ∀ (s : State) (x y : Elem) (m n : BitVec 8) (k : Nat),
    unitSteps k { s with opa := x, opb := y, opaW := m, opbW := n } =
      { unitSteps k s with opa := x, opb := y, opaW := m, opbW := n }

/-- R32: the hidden registers are in no answer to a host read and on neither output port. -/
def Obligations.HiddenStateIsNotReadable : Prop :=
  ∀ (s : State) (p : Phase) (op : Op) (a b c d e : Elem) (off : Offset) (size : Nat) (names : List Var),
    let t := { s with ph := p, lop := op, la := a, lb := b, sq := c, racc := d, e := e }
    readAnswer off size t = readAnswer off size s ∧ t.busyPort = s.busyPort ∧ t.donePort = s.donePort ∧
      observe names t = observe names s

/-! ## The window -/

/-- R41: a host write, at each offset of the window; with a model fault set there is no step, which the model answers
with the outcome `fault` (log entry 5). -/
def Obligations.HostWritesTakeEffect : Prop :=
  (∀ (a : Access) (s : State) (r : Fault), s.fault = some r → hostTurn a s = .fault r) ∧
  ∀ (s : State) (v : Word), s.fault = none →
    (∀ off : Offset, off.toNat % 4 ≠ 0 →
      hostTurn (.write off 4 v) s = .next { s with fault := some .illegalAccess }) ∧
    hostTurn (.write 0x00 4 v) s = .next (commandWrite v s) ∧
    (∀ k : Fin 8,
      (∃ t, hostTurn (.write (BitVec.ofNat 8 (0x20 + 4 * k)) 4 v) s = .next t ∧
        t = { s with opa := t.opa, opaW := t.opaW } ∧
        (∀ j, wordOf t.opa j = if j = k then v else wordOf s.opa j) ∧
        (∀ j, marked t.opaW j = if j = k then true else marked s.opaW j)) ∧
      (∃ t, hostTurn (.write (BitVec.ofNat 8 (0x40 + 4 * k)) 4 v) s = .next t ∧
        t = { s with opb := t.opb, opbW := t.opbW } ∧
        (∀ j, wordOf t.opb j = if j = k then v else wordOf s.opb j) ∧
        (∀ j, marked t.opbW j = if j = k then true else marked s.opbW j))) ∧
    (∀ off : Offset, off.toNat % 4 = 0 → off ≠ 0x00 → (off.toNat < 0x20 ∨ 0x60 ≤ off.toNat) →
      hostTurn (.write off 4 v) s = .next { s with fault := some .illegalAccess })

/-- R42: a host read, at each offset of the window. The word goes to `replies`, the host's side (log entry 7), and a
draw is a fresh free value (log entry 8). -/
def Obligations.HostReadsAnswer : Prop :=
  (∀ (a : Access) (s : State) (r : Fault), s.fault = some r → hostTurn a s = .fault r) ∧
  (∀ (off : Offset) (size : Nat) (s : State), s.fault = none →
    (∀ v, readAnswer off size s = .value v →
      hostTurn (.read off size) s = .next { s with replies := v :: s.replies }) ∧
    (readAnswer off size s = .draw →
      hostTurn (.read off size) s =
        .next { s with replies := Config.draw s.draws :: s.replies, draws := s.draws + 1 }) ∧
    (∀ r, readAnswer off size s = .fault r →
      hostTurn (.read off size) s = .next { s with fault := some r })) ∧
  ∀ s : State,
    (∀ off : Offset, off.toNat % 4 ≠ 0 → readAnswer off 4 s = .fault .illegalAccess) ∧
    readAnswer 0x04 4 s = .value s.status ∧
    readAnswer 0x08 4 s = (if s.busy = true then .draw else .value s.itercnt) ∧
    readAnswer 0x0C 4 s = (if s.busy = true then .draw else .value s.mulcnt) ∧
    (∀ k : Fin 8,
      readAnswer (BitVec.ofNat 8 (0x20 + 4 * k)) 4 s =
        (if marked s.opaW k = true then .value (wordOf s.opa k) else .fault .unwrittenRead) ∧
      readAnswer (BitVec.ofNat 8 (0x40 + 4 * k)) 4 s =
        (if marked s.opbW k = true then .value (wordOf s.opb k) else .fault .unwrittenRead) ∧
      readAnswer (BitVec.ofNat 8 (0x60 + 4 * k)) 4 s =
        (if s.rvalid = true then .value (wordOf s.res k) else .fault .invalidResultRead) ∧
      readAnswer (BitVec.ofNat 8 (0x80 + 4 * k)) 4 s = .value (wordOf (BitVec.ofNat 256 Config.P) k)) ∧
    (∀ off : Offset, off.toNat % 4 = 0 →
      (off = 0x00 ∨ (0x10 ≤ off.toNat ∧ off.toNat < 0x20) ∨ 0xA0 ≤ off.toNat) →
      readAnswer off 4 s = .fault .illegalAccess)

/-- R46: each illegal access sets IllegalAccess and nothing else. -/
def Obligations.IllegalAccessesFault : Prop :=
  ∀ (s : State) (off : Offset) (size : Nat) (v : Word), s.fault = none →
    (off = 0x00 → hostTurn (.read off 4) s = .next { s with fault := some .illegalAccess }) ∧
    (0x04 ≤ off.toNat → off.toNat < 0x10 →
      hostTurn (.write off 4 v) s = .next { s with fault := some .illegalAccess }) ∧
    (0x60 ≤ off.toNat → off.toNat < 0xA0 →
      hostTurn (.write off 4 v) s = .next { s with fault := some .illegalAccess }) ∧
    ((0x10 ≤ off.toNat ∧ off.toNat < 0x20) ∨ 0xA0 ≤ off.toNat →
      hostTurn (.read off 4) s = .next { s with fault := some .illegalAccess } ∧
      hostTurn (.write off 4 v) s = .next { s with fault := some .illegalAccess }) ∧
    (size ≠ 4 ∨ off.toNat % 4 ≠ 0 →
      hostTurn (.read off size) s = .next { s with fault := some .illegalAccess } ∧
      hostTurn (.write off size v) s = .next { s with fault := some .illegalAccess })

/-- R93: the one outcome of a CMD write, in the order of the checks. -/
def Obligations.CommandWriteChecksInOrder : Prop :=
  ∀ (s : State) (v : Word),
    let outcome := hostTurn (.write 0x00 4 v) s
    (∀ r, s.fault = some r → outcome = .fault r) ∧
    (s.fault = none →
      if s.busy = true then outcome = .next { s with fault := some .commandWhileBusy }
      else match decode v with
        | .error _ =>
          ∃ t, outcome = .next t ∧ t.fault = none ∧ t.lop = .illegal ∧ t.ph = .start ∧
            (unitStep t).status = 0x00000026 ∧ (unitStep t).fault = none ∧ t.la = s.la ∧ t.lb = s.lb
        | .ok i =>
          if ∃ k, marked s.opaW k = false then outcome = .next { s with fault := some .unwrittenOperand }
          else if i ≠ .inv ∧ ∃ k, marked s.opbW k = false then
            outcome = .next { s with fault := some .unwrittenOperand }
          else
            ∃ t, outcome = .next t ∧ t.fault = none ∧ t.lop = .legal i ∧ t.ph = .start ∧ t.la = s.opa ∧
              t.status = 0x00000001 ∧ (unitStep t).fault = none ∧
              ((unitStep t).err = true ↔
                (i = .inv ∧ s.opa.toNat % Config.P = 0) ∨ (i = .div ∧ s.opb.toNat % Config.P = 0)) ∧
              ((unitStep t).err = true → (unitStep t).status = 0x00000016))

/-- R28: a counter read is a fresh free word (log entry 8) while a command is in flight and the exact value otherwise;
neither sets a fault. -/
def Obligations.CounterReadsWhileBusyAreDraws : Prop :=
  ∀ s : State, s.fault = none →
    (s.busy = true →
      hostTurn (.read 0x08 4) s =
        .next { s with replies := Config.draw s.draws :: s.replies, draws := s.draws + 1 } ∧
      hostTurn (.read 0x0C 4) s =
        .next { s with replies := Config.draw s.draws :: s.replies, draws := s.draws + 1 }) ∧
    (s.busy = false →
      hostTurn (.read 0x08 4) s = .next { s with replies := s.itercnt :: s.replies } ∧
      hostTurn (.read 0x0C 4) s = .next { s with replies := s.mulcnt :: s.replies })

/-- R47: a CMD write starts a command and a second one while it is in flight faults; an operand write stores the word
and sets its mark, and repeated it changes nothing more; no read changes anything of the core but FAULT. -/
def Obligations.ReadsAndRepeatedWritesHaveNoSideEffect : Prop :=
  (∀ (v : Word) (s : State), Ready (Op.ofWord v) s →
    (commandWrite v s).busy = true ∧ (commandWrite v s).ph = .start ∧
    commandWrite v (commandWrite v s) = { commandWrite v s with fault := some .commandWhileBusy }) ∧
  (∀ (k : Fin 8) (v : Word) (s : State),
    wordOf (writeOpa k v s).opa k = v ∧ Written .opa k (writeOpa k v s) ∧
    wordOf (writeOpb k v s).opb k = v ∧ Written .opb k (writeOpb k v s) ∧
    writeOpa k v (writeOpa k v s) = writeOpa k v s ∧ writeOpb k v (writeOpb k v s) = writeOpb k v s) ∧
  (∀ (off : Offset) (size : Nat) (s : State),
    { memRead off size s with fault := s.fault, replies := s.replies, draws := s.draws } = s ∧
    (readAnswer off size s ≠ .draw → (memRead off size s).draws = s.draws)) ∧
  (∀ (off off' : Offset) (size size' : Nat) (s : State),
    readAnswer off' size' (memRead off size s) = readAnswer off' size' s)

/-- R43: word k of a register is bits 32k+31:32k at offset base + 4k, and eight word writes make the register whatever
their order, since each word is independent storage. -/
def Obligations.EightWordsMakeARegisterInAnyOrder : Prop :=
  (∀ (x : Elem) (k : Fin 8) (i : Nat), i < 32 → (wordOf x k).getLsbD i = x.getLsbD (32 * k + i)) ∧
  (∀ k : Fin 8,
    regAt (BitVec.ofNat 8 (0x20 + 4 * k)) = .opa k ∧ regAt (BitVec.ofNat 8 (0x40 + 4 * k)) = .opb k ∧
    regAt (BitVec.ofNat 8 (0x60 + 4 * k)) = .res k ∧ regAt (BitVec.ofNat 8 (0x80 + 4 * k)) = .pmod k) ∧
  (∀ (x : Elem) (s : State) (ks : List (Fin 8)), (∀ k, k ∈ ks) →
    (ks.foldl (fun t k => writeOpa k (wordOf x k) t) s).opa = x ∧
    (∀ k, marked (ks.foldl (fun t k => writeOpa k (wordOf x k) t) s).opaW k = true) ∧
    (ks.foldl (fun t k => writeOpb k (wordOf x k) t) s).opb = x ∧
    (∀ k, marked (ks.foldl (fun t k => writeOpb k (wordOf x k) t) s).opbW k = true)) ∧
  (∀ (v : Word) (s : State), Ready (Op.ofWord v) s →
    ((Op.ofWord v).readsA = true → (commandWrite v s).la = s.opa) ∧
    ((Op.ofWord v).readsB = true → (commandWrite v s).lb = s.opb))

/-- `wr256` leaves the whole register and its marks, and nothing else; `rd256 RES` gives the host the eight words of a
valid result, of which the result is made again. -/
def Obligations.WideStatementsMoveAWholeRegister : Prop :=
  (∀ (s : State) (x : Elem) (rest : List Event), s.fault = none →
    core.run 8 { s with agenda := wr256 .opa x ++ rest } =
      .next { s with agenda := rest, opa := x, opaW := 0xFF } ∧
    core.run 8 { s with agenda := wr256 .opb x ++ rest } =
      .next { s with agenda := rest, opb := x, opbW := 0xFF } ∧
    (s.rvalid = true →
      core.run 8 { s with agenda := rd256 .res ++ rest } =
        .next { s with agenda := rest, replies := (eachWord.map (wordOf s.res)).reverse ++ s.replies })) ∧
  (∀ x : Elem,
    elemOfWords (wordOf x 0) (wordOf x 1) (wordOf x 2) (wordOf x 3) (wordOf x 4) (wordOf x 5) (wordOf x 6)
      (wordOf x 7) = x)

/-- Byte m of a register lies at BASE + base_R + m and carries its bits 8m+7:8m, whatever BASE is. -/
def Obligations.PlatformBytesAreLittleEndian : Prop :=
  ∀ (s : State) (m : Fin 32),
    platformByte s (Config.base + 0x80 + m) = some ((BitVec.ofNat 256 Config.P).extractLsb' (8 * m) 8) ∧
    ((∀ k, marked s.opaW k = true) →
      platformByte s (Config.base + 0x20 + m) = some (s.opa.extractLsb' (8 * m) 8)) ∧
    ((∀ k, marked s.opbW k = true) →
      platformByte s (Config.base + 0x40 + m) = some (s.opb.extractLsb' (8 * m) 8)) ∧
    (s.rvalid = true →
      platformByte s (Config.base + 0x60 + m) = some (s.res.extractLsb' (8 * m) 8))

/-- R17: PMOD reads as P word by word, always, and a write to it is an illegal access. -/
def Obligations.ModulusIsReadable : Prop :=
  ∀ s : State, s.fault = none →
    readAnswer 0x80 4 s = .value 0xFFFFFC2F ∧ readAnswer 0x84 4 s = .value 0xFFFFFFFE ∧
    (∀ k : Fin 8, 2 ≤ k.val → readAnswer (BitVec.ofNat 8 (0x80 + 4 * k)) 4 s = .value 0xFFFFFFFF) ∧
    (∀ (k : Fin 8) (v : Word),
      hostTurn (.write (BitVec.ofNat 8 (0x80 + 4 * k)) 4 v) s =
        .next { s with fault := some .illegalAccess }) ∧
    (∀ t, step s = .next t → ∀ k : Fin 8,
      readAnswer (BitVec.ofNat 8 (0x80 + 4 * k)) 4 t = readAnswer (BitVec.ofNat 8 (0x80 + 4 * k)) 4 s)

/-! ## Model faults and duties -/

/-- R101: a fault sets FAULT if it is empty and writes nothing else; with FAULT set no Host and no Unit step is enabled,
nothing clears it, a reset neither, and the state is never the end of a run. -/
def Obligations.FaultIsStickyAndQuiescent : Prop :=
  (∀ (r : Fault) (s : State), s.fault = none → raiseFault r s = { s with fault := some r }) ∧
  (∀ (r q : Fault) (s : State), s.fault = some q → raiseFault r s = s) ∧
  (∀ (s : State) (r : Fault), s.fault = some r →
    (∀ a, hostTurn a s = .fault r) ∧ unitTurn s = .fault r ∧ (∀ i, exec i s = .fault r) ∧
    execIllegal s = .fault r ∧ (hardReset s).fault = some r ∧ ¬ Final s) ∧
  (∀ (s t : State) (r : Fault), s.fault = some r → step s = .next t →
    t.fault = some r ∧ ∃ rest, s.agenda = .reset :: rest)

/-- A host access keeps the duties of R112 to R116 exactly when it sets no model fault, and the Unit sets none. -/
def Obligations.DutiesKeptMeansNoFault : Prop :=
  (∀ (a : Access) (s : State), s.fault = none → ((access a s).fault = none ↔ DutyKept a s)) ∧
  (∀ s : State, (unitStep s).fault = s.fault)

/-- Between a completion and the next CMD write the report stands: no other access and no turn of the Unit changes
STATUS, RES or a counter. -/
def Obligations.ReportStandsUntilTheNextCommand : Prop :=
  ∀ (s t : State) (rest : List Event), s.ph = .idle → step s = .next t →
    (s.agenda = [] ∨ s.agenda = .unit :: rest ∨
      (∃ off size, s.agenda = .access (.read off size) :: rest) ∨
      (∃ off size v, regAt off ≠ .cmd ∧ s.agenda = .access (.write off size v) :: rest)) →
    t.status = s.status ∧ t.res = s.res ∧ t.itercnt = s.itercnt ∧ t.mulcnt = s.mulcnt ∧ t.ph = .idle

/-- What is observed at the end of a run says nothing of an unwritten operand word or of RES without RVALID: after a
reset it is the same whatever the free values are. -/
def Obligations.ObservationShowsOnlyWhatIsDefined : Prop :=
  (∀ (s : State) (names : List Var), observe names (hardReset s) =
    { status := 0, itercnt := 0, mulcnt := 0, res := none
      opa := List.replicate 8 none, opb := List.replicate 8 none, vars := hostVars names s.replies }) ∧
  (∀ (s t : State) (names : List Var), s.status = t.status → s.itercnt = t.itercnt → s.mulcnt = t.mulcnt →
    s.opaW = t.opaW → s.opbW = t.opbW → hostVars names s.replies = hostVars names t.replies →
    (s.rvalid = true → s.res = t.res) →
    (∀ k, Written .opa k s → wordOf s.opa k = wordOf t.opa k) →
    (∀ k, Written .opb k s → wordOf s.opb k = wordOf t.opb k) →
    observe names s = observe names t)

/-! ## Laws of the operations -/

/-- R78, which the spec derives from R76: the laws of exp. -/
def Obligations.ExponentLawsHold : Prop :=
  (∀ a : Elem, Computes .exp a 0 1) ∧
  (∀ a : Elem, Computes .exp a 1 (BitVec.ofNat 256 (a.toNat % Config.P))) ∧
  (∀ a m n : Elem, m.toNat + n.toNat < 2 ^ 256 →
    ∃ x y z, Computes .exp a m x ∧ Computes .exp a n y ∧ Computes .mul x y z ∧ Computes .exp a (m + n) z) ∧
  (∀ a : Elem, a.toNat % Config.P ≠ 0 → Computes .exp a (BitVec.ofNat 256 (Config.P - 1)) 1) ∧
  Computes .exp (BitVec.ofNat 256 Config.P) (BitVec.ofNat 256 (Config.P - 1)) 0

/-- R86, which the spec derives from R14 and R82 to R84: the laws of inv and div. -/
def Obligations.InverseAndDivisionLawsHold : Prop :=
  (∀ a b : Elem, a.toNat % Config.P ≠ 0 → ∃ x, Computes .inv a b x ∧ Computes .mul a x 1) ∧
  (∀ a b : Elem, DividesByZero .inv 0 b ∧ DividesByZero .inv (BitVec.ofNat 256 Config.P) b ∧
    DividesByZero .div a 0 ∧ DividesByZero .div a (BitVec.ofNat 256 Config.P)) ∧
  (∀ a b : Elem, b.toNat % Config.P ≠ 0 →
    ∃ q, Computes .div a b q ∧ Computes .mul q b (BitVec.ofNat 256 (a.toNat % Config.P))) ∧
  (∀ a b c : Elem, b.toNat % Config.P ≠ 0 →
    ∃ r q, Computes .inv b c r ∧ Computes .mul a r q ∧ Computes .div a b q) ∧
  (∀ (s t : State), Ready (.legal .div) s → s.opb.toNat % Config.P ≠ 0 → exec .div s = .next t →
    t.itercnt = 256 ∧ t.mulcnt = 506)

/-! ## The host's polls -/

/-- R121 does not say how many STATUS polls the host made: a `wait` of any number of polls, each into the variable `x`,
ends with the observation of one poll, and that variable holds STATUS. The agenda, and the list of the variables that
the reads name, are the model's own (log entries 1 and 22). -/
def Obligations.ObservationDoesNotTellThePolls : Prop :=
  (∀ (s : State) (polls : Nat) (x : Var) (names : List Var), s.fault = none → s.agenda = [] →
    ∃ t, core.run (polls + 1) { s with agenda := wait (polls + 1) } = .next t ∧ t.agenda = [] ∧ t.fault = none ∧
      observe (List.replicate (polls + 1) x ++ names) t =
        observe (x :: names) { s with replies := s.status :: s.replies }) ∧
  (∀ (x : Var) (v : Word) (names : List Var) (words : List Word),
    (hostVars (x :: names) (v :: words)).lookup x = some v ∧
    ∀ y, y ≠ x → (hostVars (x :: names) (v :: words)).lookup y = (hostVars names words).lookup y)
end

