-- ==== Sys2Proof/Laws/Operands.lean ====
section
/-! SUPPORT. The laws of the operand operations: the words of a register (R43), the written marks (R22), the exact
arithmetic (R67), and `bitlen` and `popcount` (R11). -/

namespace Sys2Proof.Machine

/-! ### Words of a register -/

/-- Reading bit `i` of a register after a word is written. -/
theorem setWordOf_getLsbD (x : Elem) (k : Fin 8) (v : Word) (i : Nat) (hi : i < 256) :
    (setWordOf x k v).getLsbD i =
      if 32 * k.val ≤ i ∧ i < 32 * k.val + 32 then v.getLsbD (i - 32 * k.val) else x.getLsbD i := by
  have hm : (0xFFFFFFFF#256).getLsbD (i - 32 * k.val) = decide (i - 32 * k.val < 32) := by
    have h : (0xFFFFFFFF#256) = (BitVec.allOnes 32).setWidth 256 := by decide
    rw [h, BitVec.getLsbD_setWidth, BitVec.getLsbD_allOnes]
    simp only [Bool.and_eq_right_iff_imp, decide_eq_true_eq]
    omega
  unfold setWordOf
  simp only [BitVec.getLsbD_or, BitVec.getLsbD_and, BitVec.getLsbD_not, BitVec.getLsbD_shiftLeft, hm,
    BitVec.getLsbD_setWidth, hi, decide_true, Bool.true_and]
  by_cases h1 : i < 32 * k.val
  · have h2 : ¬ (32 * k.val ≤ i) := by omega
    simp [h1, h2]
  · by_cases h3 : i - 32 * k.val < 32
    · have h4 : 32 * k.val ≤ i ∧ i < 32 * k.val + 32 := by omega
      have h5 : i - 32 * k.val < 256 := by omega
      simp [h1, h3, h4, h5]
    · have h4 : ¬ (32 * k.val ≤ i ∧ i < 32 * k.val + 32) := by omega
      have h6 : v.getLsbD (i - 32 * k.val) = false := BitVec.getLsbD_of_ge _ _ (by omega)
      simp [h1, h3, h4, h6]

/-- A word read after it is written gives the value written (R41, R43). -/
@[simp] theorem wordOf_setWordOf_same (x : Elem) (k : Fin 8) (v : Word) : wordOf (setWordOf x k v) k = v := by
  apply BitVec.eq_of_getLsbD_eq
  intro i hi
  unfold wordOf
  rw [BitVec.getLsbD_extractLsb', setWordOf_getLsbD _ _ _ _ (by omega)]
  have h : 32 * k.val ≤ 32 * k.val + i ∧ 32 * k.val + i < 32 * k.val + 32 := by omega
  simp [hi, h]

/-- Writing a word leaves the others alone: each word is independent storage (R43). -/
theorem wordOf_setWordOf_other (x : Elem) {j k : Fin 8} (v : Word) (h : j ≠ k) :
    wordOf (setWordOf x k v) j = wordOf x j := by
  have hne : j.val ≠ k.val := fun e => h (Fin.ext e)
  apply BitVec.eq_of_getLsbD_eq
  intro i hi
  unfold wordOf
  rw [BitVec.getLsbD_extractLsb', BitVec.getLsbD_extractLsb', setWordOf_getLsbD _ _ _ _ (by omega)]
  have h' : ¬ (32 * k.val ≤ 32 * j.val + i ∧ 32 * j.val + i < 32 * k.val + 32) := by omega
  simp [h']

/-- A register is known from its eight words (R43). -/
theorem elem_ext_words {x y : Elem} (h : ∀ k, wordOf x k = wordOf y k) : x = y := by
  apply BitVec.eq_of_getLsbD_eq
  intro i hi
  have hk := congrArg (fun w : Word => w.getLsbD (i % 32)) (h ⟨i / 32, by omega⟩)
  simp only [wordOf, BitVec.getLsbD_extractLsb'] at hk
  have hlt : i % 32 < 32 := by omega
  have hsum : 32 * (i / 32) + i % 32 = i := by omega
  simpa [hlt, hsum] using hk

/-! ### Written marks -/

@[simp] theorem marked_setMark_same (m : BitVec 8) (k : Fin 8) : marked (setMark m k) k = true := by
  unfold marked setMark
  simp

theorem marked_setMark_other (m : BitVec 8) {j k : Fin 8} (h : j ≠ k) :
    marked (setMark m k) j = marked m j := by
  have hne : j.val ≠ k.val := fun e => h (Fin.ext e)
  unfold marked setMark
  simp only [BitVec.getLsbD_or, BitVec.getLsbD_shiftLeft]
  by_cases hlt : j.val < k.val
  · simp [hlt]
  · have h0 : (1#8).getLsbD (j.val - k.val) = false := by
      have : j.val - k.val ≠ 0 := by omega
      simp [BitVec.getLsbD_one, this]
    simp [h0]

/-- All eight marks are set exactly when each is (R59). -/
theorem allMarked_iff (m : BitVec 8) : allMarked m = true ↔ ∀ k, marked m k = true := by
  unfold allMarked marked
  constructor
  · intro h k
    have h' : m = 0xFF#8 := by simpa using h
    subst h'
    revert k
    decide
  · intro h
    have h' : m = 0xFF#8 := by
      apply BitVec.eq_of_getLsbD_eq
      intro i hi
      have hi' := h ⟨i, hi⟩
      have ht : (0xFF#8).getLsbD i = true := by
        interval_cases i <;> decide
      rw [ht]
      exact hi'
    simp [h']

/-! ### Exact arithmetic -/

theorem P_pos : 0 < Config.P := by decide

theorem P_lt : Config.P < 2 ^ 256 := by decide

/-- A reduced value is the residue, exactly (R67). -/
@[simp] theorem reduce_toNat (n : Nat) : (reduce n).toNat = n % Config.P := by
  unfold reduce
  rw [BitVec.toNat_ofNat]
  exact Nat.mod_eq_of_lt (lt_trans (Nat.mod_lt _ P_pos) P_lt)

/-- Every reduced value is canonical (R5). -/
theorem reduce_lt (n : Nat) : (reduce n).toNat < Config.P := by
  rw [reduce_toNat]
  exact Nat.mod_lt _ P_pos

@[simp] theorem addMod_toNat (x y : Elem) : (addMod x y).toNat = (x.toNat + y.toNat) % Config.P :=
  reduce_toNat _

@[simp] theorem subMod_toNat (x y : Elem) :
    (subMod x y).toNat = (x.toNat + (Config.P - y.toNat % Config.P)) % Config.P :=
  reduce_toNat _

@[simp] theorem mulMod_toNat (x y : Elem) : (mulMod x y).toNat = (x.toNat * y.toNat) % Config.P :=
  reduce_toNat _

theorem zeroResidue_iff (x : Elem) : zeroResidue x = true ↔ x.toNat % Config.P = 0 := by
  unfold zeroResidue
  exact beq_iff_eq

@[simp] theorem fermatExponent_toNat : fermatExponent.toNat = Config.P - 2 := by decide

@[simp] theorem pmod_toNat : pmod.toNat = Config.P := by decide

end Sys2Proof.Machine

namespace Sys2Proof.Safety

open Sys2Proof.Machine

/-! ### `bitlen` and `popcount` -/

theorem bitlenBelow_le (f n : Nat) : bitlenBelow f n ≤ f := by
  induction f generalizing n with
  | zero => simp [bitlenBelow]
  | succ f ih =>
    unfold bitlenBelow
    have := ih (n / 2)
    split <;> omega

theorem popcountBelow_le (f n : Nat) : popcountBelow f n ≤ f := by
  induction f generalizing n with
  | zero => simp [popcountBelow]
  | succ f ih =>
    unfold popcountBelow
    have := ih (n / 2)
    omega

/-- Enough fuel is enough. -/
theorem bitlenBelow_succ (f n : Nat) (h : n < 2 ^ f) : bitlenBelow (f + 1) n = bitlenBelow f n := by
  induction f generalizing n with
  | zero =>
    have : n = 0 := by simpa using h
    simp [bitlenBelow, this]
  | succ f ih =>
    have hn : n / 2 < 2 ^ f := by omega
    rw [bitlenBelow, ih _ hn]
    conv_rhs => rw [bitlenBelow]

theorem popcountBelow_succ (f n : Nat) (h : n < 2 ^ f) : popcountBelow (f + 1) n = popcountBelow f n := by
  induction f generalizing n with
  | zero =>
    have : n = 0 := by simpa using h
    simp [popcountBelow, this]
  | succ f ih =>
    have hn : n / 2 < 2 ^ f := by omega
    rw [popcountBelow, ih _ hn]
    conv_rhs => rw [popcountBelow]

theorem bitlen_le (e : Elem) : bitlen e ≤ 256 := bitlenBelow_le 256 _

theorem popcount_le (e : Elem) : popcount e ≤ 256 := popcountBelow_le 256 _

@[simp] theorem bitlen_zero : bitlen 0 = 0 := by decide

@[simp] theorem popcount_zero : popcount 0 = 0 := by decide +kernel

/-- `bitlen_zero` in the form `simp` gives the literal. -/
@[simp] theorem bitlen_zero_literal : bitlen 0#256 = 0 := bitlen_zero

/-- `popcount_zero` in the form `simp` gives the literal. -/
@[simp] theorem popcount_zero_literal : popcount 0#256 = 0 := popcount_zero

theorem toNat_shiftRight_one (e : Elem) : (e >>> 1).toNat = e.toNat / 2 := by
  rw [BitVec.toNat_ushiftRight, Nat.shiftRight_eq_div_pow, pow_one]

/-- Shifting a nonzero exponent right takes one bit off its length (R11). -/
theorem bitlen_shift (e : Elem) (h : e ≠ 0) : bitlen e = bitlen (e >>> 1) + 1 := by
  have hn : e.toNat ≠ 0 := fun hz => h (BitVec.eq_of_toNat_eq hz)
  have hlt : e.toNat / 2 < 2 ^ 255 := by have := e.isLt; omega
  unfold bitlen
  rw [toNat_shiftRight_one]
  change bitlenBelow (255 + 1) _ = bitlenBelow (255 + 1) _ + 1
  rw [bitlenBelow_succ 255 _ hlt, bitlenBelow, if_neg hn, Nat.add_comm]

/-- Shifting an exponent right takes its bit 0 off its count of ones (R11). -/
theorem popcount_shift (e : Elem) : popcount e = popcount (e >>> 1) + e.toNat % 2 := by
  have hlt : e.toNat / 2 < 2 ^ 255 := by have := e.isLt; omega
  unfold popcount
  rw [toNat_shiftRight_one]
  change popcountBelow (255 + 1) _ = popcountBelow (255 + 1) _ + _
  rw [popcountBelow_succ 255 _ hlt, popcountBelow, Nat.add_comm]

theorem bitlen_eq_zero_iff (e : Elem) : bitlen e = 0 ↔ e = 0 := by
  constructor
  · intro h
    by_contra hne
    have := bitlen_shift e hne
    omega
  · rintro rfl
    exact bitlen_zero

/-- The counts of the hardwired exponent: 256 bits, 249 of them set (R3). -/
theorem bitlen_fermatExponent : bitlen fermatExponent = 256 := by decide +kernel

theorem popcount_fermatExponent : popcount fermatExponent = 249 := by decide +kernel

end Sys2Proof.Safety
end

