-- ==== Sys2Proof/Laws/State.lean ====
section
/-! SUPPORT. What each update of the state leaves in each field: one lemma per field per update, so that no later proof
unfolds a record update. -/

namespace Sys2Proof.Machine

/-! ### `raiseFault` -/

@[simp] theorem raiseFault_opa (r : Fault) (s : State) :
    (raiseFault r s).opa = s.opa := rfl
@[simp] theorem raiseFault_opb (r : Fault) (s : State) :
    (raiseFault r s).opb = s.opb := rfl
@[simp] theorem raiseFault_res (r : Fault) (s : State) :
    (raiseFault r s).res = s.res := rfl
@[simp] theorem raiseFault_opaW (r : Fault) (s : State) :
    (raiseFault r s).opaW = s.opaW := rfl
@[simp] theorem raiseFault_opbW (r : Fault) (s : State) :
    (raiseFault r s).opbW = s.opbW := rfl
@[simp] theorem raiseFault_status (r : Fault) (s : State) :
    (raiseFault r s).status = s.status := rfl
@[simp] theorem raiseFault_itercnt (r : Fault) (s : State) :
    (raiseFault r s).itercnt = s.itercnt := rfl
@[simp] theorem raiseFault_mulcnt (r : Fault) (s : State) :
    (raiseFault r s).mulcnt = s.mulcnt := rfl
@[simp] theorem raiseFault_ph (r : Fault) (s : State) :
    (raiseFault r s).ph = s.ph := rfl
@[simp] theorem raiseFault_lop (r : Fault) (s : State) :
    (raiseFault r s).lop = s.lop := rfl
@[simp] theorem raiseFault_la (r : Fault) (s : State) :
    (raiseFault r s).la = s.la := rfl
@[simp] theorem raiseFault_lb (r : Fault) (s : State) :
    (raiseFault r s).lb = s.lb := rfl
@[simp] theorem raiseFault_sq (r : Fault) (s : State) :
    (raiseFault r s).sq = s.sq := rfl
@[simp] theorem raiseFault_racc (r : Fault) (s : State) :
    (raiseFault r s).racc = s.racc := rfl
@[simp] theorem raiseFault_e (r : Fault) (s : State) :
    (raiseFault r s).e = s.e := rfl
@[simp] theorem raiseFault_agenda (r : Fault) (s : State) :
    (raiseFault r s).agenda = s.agenda := rfl
@[simp] theorem raiseFault_replies (r : Fault) (s : State) :
    (raiseFault r s).replies = s.replies := rfl
@[simp] theorem raiseFault_draws (r : Fault) (s : State) :
    (raiseFault r s).draws = s.draws := rfl

/-! ### `completeOk` -/

@[simp] theorem completeOk_opa (r : Elem) (s : State) :
    (completeOk r s).opa = s.opa := rfl
@[simp] theorem completeOk_opb (r : Elem) (s : State) :
    (completeOk r s).opb = s.opb := rfl
@[simp] theorem completeOk_res (r : Elem) (s : State) :
    (completeOk r s).res = r := rfl
@[simp] theorem completeOk_opaW (r : Elem) (s : State) :
    (completeOk r s).opaW = s.opaW := rfl
@[simp] theorem completeOk_opbW (r : Elem) (s : State) :
    (completeOk r s).opbW = s.opbW := rfl
@[simp] theorem completeOk_status (r : Elem) (s : State) :
    (completeOk r s).status = statusOk := rfl
@[simp] theorem completeOk_itercnt (r : Elem) (s : State) :
    (completeOk r s).itercnt = s.itercnt := rfl
@[simp] theorem completeOk_mulcnt (r : Elem) (s : State) :
    (completeOk r s).mulcnt = s.mulcnt := rfl
@[simp] theorem completeOk_ph (r : Elem) (s : State) :
    (completeOk r s).ph = .idle := rfl
@[simp] theorem completeOk_lop (r : Elem) (s : State) :
    (completeOk r s).lop = s.lop := rfl
@[simp] theorem completeOk_la (r : Elem) (s : State) :
    (completeOk r s).la = s.la := rfl
@[simp] theorem completeOk_lb (r : Elem) (s : State) :
    (completeOk r s).lb = s.lb := rfl
@[simp] theorem completeOk_sq (r : Elem) (s : State) :
    (completeOk r s).sq = s.sq := rfl
@[simp] theorem completeOk_racc (r : Elem) (s : State) :
    (completeOk r s).racc = s.racc := rfl
@[simp] theorem completeOk_e (r : Elem) (s : State) :
    (completeOk r s).e = s.e := rfl
@[simp] theorem completeOk_fault (r : Elem) (s : State) :
    (completeOk r s).fault = s.fault := rfl
@[simp] theorem completeOk_agenda (r : Elem) (s : State) :
    (completeOk r s).agenda = s.agenda := rfl
@[simp] theorem completeOk_replies (r : Elem) (s : State) :
    (completeOk r s).replies = s.replies := rfl
@[simp] theorem completeOk_draws (r : Elem) (s : State) :
    (completeOk r s).draws = s.draws := rfl

/-! ### `completeErr` -/

@[simp] theorem completeErr_opa (c : BitVec 4) (s : State) :
    (completeErr c s).opa = s.opa := rfl
@[simp] theorem completeErr_opb (c : BitVec 4) (s : State) :
    (completeErr c s).opb = s.opb := rfl
@[simp] theorem completeErr_res (c : BitVec 4) (s : State) :
    (completeErr c s).res = s.res := rfl
@[simp] theorem completeErr_opaW (c : BitVec 4) (s : State) :
    (completeErr c s).opaW = s.opaW := rfl
@[simp] theorem completeErr_opbW (c : BitVec 4) (s : State) :
    (completeErr c s).opbW = s.opbW := rfl
@[simp] theorem completeErr_status (c : BitVec 4) (s : State) :
    (completeErr c s).status = statusErr c := rfl
@[simp] theorem completeErr_itercnt (c : BitVec 4) (s : State) :
    (completeErr c s).itercnt = s.itercnt := rfl
@[simp] theorem completeErr_mulcnt (c : BitVec 4) (s : State) :
    (completeErr c s).mulcnt = s.mulcnt := rfl
@[simp] theorem completeErr_ph (c : BitVec 4) (s : State) :
    (completeErr c s).ph = .idle := rfl
@[simp] theorem completeErr_lop (c : BitVec 4) (s : State) :
    (completeErr c s).lop = s.lop := rfl
@[simp] theorem completeErr_la (c : BitVec 4) (s : State) :
    (completeErr c s).la = s.la := rfl
@[simp] theorem completeErr_lb (c : BitVec 4) (s : State) :
    (completeErr c s).lb = s.lb := rfl
@[simp] theorem completeErr_sq (c : BitVec 4) (s : State) :
    (completeErr c s).sq = s.sq := rfl
@[simp] theorem completeErr_racc (c : BitVec 4) (s : State) :
    (completeErr c s).racc = s.racc := rfl
@[simp] theorem completeErr_e (c : BitVec 4) (s : State) :
    (completeErr c s).e = s.e := rfl
@[simp] theorem completeErr_fault (c : BitVec 4) (s : State) :
    (completeErr c s).fault = s.fault := rfl
@[simp] theorem completeErr_agenda (c : BitVec 4) (s : State) :
    (completeErr c s).agenda = s.agenda := rfl
@[simp] theorem completeErr_replies (c : BitVec 4) (s : State) :
    (completeErr c s).replies = s.replies := rfl
@[simp] theorem completeErr_draws (c : BitVec 4) (s : State) :
    (completeErr c s).draws = s.draws := rfl

/-! ### `raise` -/

@[simp] theorem raise_opa (x : ArchError) (s : State) :
    (raise x s).opa = s.opa := rfl
@[simp] theorem raise_opb (x : ArchError) (s : State) :
    (raise x s).opb = s.opb := rfl
@[simp] theorem raise_res (x : ArchError) (s : State) :
    (raise x s).res = s.res := rfl
@[simp] theorem raise_opaW (x : ArchError) (s : State) :
    (raise x s).opaW = s.opaW := rfl
@[simp] theorem raise_opbW (x : ArchError) (s : State) :
    (raise x s).opbW = s.opbW := rfl
@[simp] theorem raise_status (x : ArchError) (s : State) :
    (raise x s).status = statusErr x.code := rfl
@[simp] theorem raise_itercnt (x : ArchError) (s : State) :
    (raise x s).itercnt = s.itercnt := rfl
@[simp] theorem raise_mulcnt (x : ArchError) (s : State) :
    (raise x s).mulcnt = s.mulcnt := rfl
@[simp] theorem raise_ph (x : ArchError) (s : State) :
    (raise x s).ph = .idle := rfl
@[simp] theorem raise_lop (x : ArchError) (s : State) :
    (raise x s).lop = s.lop := rfl
@[simp] theorem raise_la (x : ArchError) (s : State) :
    (raise x s).la = s.la := rfl
@[simp] theorem raise_lb (x : ArchError) (s : State) :
    (raise x s).lb = s.lb := rfl
@[simp] theorem raise_sq (x : ArchError) (s : State) :
    (raise x s).sq = s.sq := rfl
@[simp] theorem raise_racc (x : ArchError) (s : State) :
    (raise x s).racc = s.racc := rfl
@[simp] theorem raise_e (x : ArchError) (s : State) :
    (raise x s).e = s.e := rfl
@[simp] theorem raise_fault (x : ArchError) (s : State) :
    (raise x s).fault = s.fault := rfl
@[simp] theorem raise_agenda (x : ArchError) (s : State) :
    (raise x s).agenda = s.agenda := rfl
@[simp] theorem raise_replies (x : ArchError) (s : State) :
    (raise x s).replies = s.replies := rfl
@[simp] theorem raise_draws (x : ArchError) (s : State) :
    (raise x s).draws = s.draws := rfl

/-! ### `countMul` -/

@[simp] theorem countMul_opa (s : State) :
    (countMul s).opa = s.opa := rfl
@[simp] theorem countMul_opb (s : State) :
    (countMul s).opb = s.opb := rfl
@[simp] theorem countMul_res (s : State) :
    (countMul s).res = s.res := rfl
@[simp] theorem countMul_opaW (s : State) :
    (countMul s).opaW = s.opaW := rfl
@[simp] theorem countMul_opbW (s : State) :
    (countMul s).opbW = s.opbW := rfl
@[simp] theorem countMul_status (s : State) :
    (countMul s).status = s.status := rfl
@[simp] theorem countMul_itercnt (s : State) :
    (countMul s).itercnt = s.itercnt := rfl
@[simp] theorem countMul_mulcnt (s : State) :
    (countMul s).mulcnt = s.mulcnt + 1 := rfl
@[simp] theorem countMul_ph (s : State) :
    (countMul s).ph = s.ph := rfl
@[simp] theorem countMul_lop (s : State) :
    (countMul s).lop = s.lop := rfl
@[simp] theorem countMul_la (s : State) :
    (countMul s).la = s.la := rfl
@[simp] theorem countMul_lb (s : State) :
    (countMul s).lb = s.lb := rfl
@[simp] theorem countMul_sq (s : State) :
    (countMul s).sq = s.sq := rfl
@[simp] theorem countMul_racc (s : State) :
    (countMul s).racc = s.racc := rfl
@[simp] theorem countMul_e (s : State) :
    (countMul s).e = s.e := rfl
@[simp] theorem countMul_fault (s : State) :
    (countMul s).fault = s.fault := rfl
@[simp] theorem countMul_agenda (s : State) :
    (countMul s).agenda = s.agenda := rfl
@[simp] theorem countMul_replies (s : State) :
    (countMul s).replies = s.replies := rfl
@[simp] theorem countMul_draws (s : State) :
    (countMul s).draws = s.draws := rfl

/-! ### `countIter` -/

@[simp] theorem countIter_opa (s : State) :
    (countIter s).opa = s.opa := rfl
@[simp] theorem countIter_opb (s : State) :
    (countIter s).opb = s.opb := rfl
@[simp] theorem countIter_res (s : State) :
    (countIter s).res = s.res := rfl
@[simp] theorem countIter_opaW (s : State) :
    (countIter s).opaW = s.opaW := rfl
@[simp] theorem countIter_opbW (s : State) :
    (countIter s).opbW = s.opbW := rfl
@[simp] theorem countIter_status (s : State) :
    (countIter s).status = s.status := rfl
@[simp] theorem countIter_itercnt (s : State) :
    (countIter s).itercnt = s.itercnt + 1 := rfl
@[simp] theorem countIter_mulcnt (s : State) :
    (countIter s).mulcnt = s.mulcnt := rfl
@[simp] theorem countIter_ph (s : State) :
    (countIter s).ph = s.ph := rfl
@[simp] theorem countIter_lop (s : State) :
    (countIter s).lop = s.lop := rfl
@[simp] theorem countIter_la (s : State) :
    (countIter s).la = s.la := rfl
@[simp] theorem countIter_lb (s : State) :
    (countIter s).lb = s.lb := rfl
@[simp] theorem countIter_sq (s : State) :
    (countIter s).sq = s.sq := rfl
@[simp] theorem countIter_racc (s : State) :
    (countIter s).racc = s.racc := rfl
@[simp] theorem countIter_e (s : State) :
    (countIter s).e = s.e := rfl
@[simp] theorem countIter_fault (s : State) :
    (countIter s).fault = s.fault := rfl
@[simp] theorem countIter_agenda (s : State) :
    (countIter s).agenda = s.agenda := rfl
@[simp] theorem countIter_replies (s : State) :
    (countIter s).replies = s.replies := rfl
@[simp] theorem countIter_draws (s : State) :
    (countIter s).draws = s.draws := rfl

/-! ### `latch` -/

@[simp] theorem latch_opa (op : Op) (s : State) :
    (latch op s).opa = s.opa := rfl
@[simp] theorem latch_opb (op : Op) (s : State) :
    (latch op s).opb = s.opb := rfl
@[simp] theorem latch_res (op : Op) (s : State) :
    (latch op s).res = s.res := rfl
@[simp] theorem latch_opaW (op : Op) (s : State) :
    (latch op s).opaW = s.opaW := rfl
@[simp] theorem latch_opbW (op : Op) (s : State) :
    (latch op s).opbW = s.opbW := rfl
@[simp] theorem latch_status (op : Op) (s : State) :
    (latch op s).status = statusStarted := rfl
@[simp] theorem latch_itercnt (op : Op) (s : State) :
    (latch op s).itercnt = 0 := rfl
@[simp] theorem latch_mulcnt (op : Op) (s : State) :
    (latch op s).mulcnt = 0 := rfl
@[simp] theorem latch_ph (op : Op) (s : State) :
    (latch op s).ph = .start := rfl
@[simp] theorem latch_lop (op : Op) (s : State) :
    (latch op s).lop = op := rfl
@[simp] theorem latch_la (op : Op) (s : State) :
    (latch op s).la = if op.readsA then s.opa else s.la := rfl
@[simp] theorem latch_lb (op : Op) (s : State) :
    (latch op s).lb = if op.readsB then s.opb else s.lb := rfl
@[simp] theorem latch_sq (op : Op) (s : State) :
    (latch op s).sq = s.sq := rfl
@[simp] theorem latch_racc (op : Op) (s : State) :
    (latch op s).racc = s.racc := rfl
@[simp] theorem latch_e (op : Op) (s : State) :
    (latch op s).e = s.e := rfl
@[simp] theorem latch_fault (op : Op) (s : State) :
    (latch op s).fault = s.fault := rfl
@[simp] theorem latch_agenda (op : Op) (s : State) :
    (latch op s).agenda = s.agenda := rfl
@[simp] theorem latch_replies (op : Op) (s : State) :
    (latch op s).replies = s.replies := rfl
@[simp] theorem latch_draws (op : Op) (s : State) :
    (latch op s).draws = s.draws := rfl

/-! ### `expInit` -/

@[simp] theorem expInit_opa (b x : Elem) (s : State) :
    (expInit b x s).opa = s.opa := rfl
@[simp] theorem expInit_opb (b x : Elem) (s : State) :
    (expInit b x s).opb = s.opb := rfl
@[simp] theorem expInit_res (b x : Elem) (s : State) :
    (expInit b x s).res = s.res := rfl
@[simp] theorem expInit_opaW (b x : Elem) (s : State) :
    (expInit b x s).opaW = s.opaW := rfl
@[simp] theorem expInit_opbW (b x : Elem) (s : State) :
    (expInit b x s).opbW = s.opbW := rfl
@[simp] theorem expInit_status (b x : Elem) (s : State) :
    (expInit b x s).status = s.status := rfl
@[simp] theorem expInit_itercnt (b x : Elem) (s : State) :
    (expInit b x s).itercnt = s.itercnt := rfl
@[simp] theorem expInit_mulcnt (b x : Elem) (s : State) :
    (expInit b x s).mulcnt = s.mulcnt := rfl
@[simp] theorem expInit_ph (b x : Elem) (s : State) :
    (expInit b x s).ph = .expLoop := rfl
@[simp] theorem expInit_lop (b x : Elem) (s : State) :
    (expInit b x s).lop = s.lop := rfl
@[simp] theorem expInit_la (b x : Elem) (s : State) :
    (expInit b x s).la = s.la := rfl
@[simp] theorem expInit_lb (b x : Elem) (s : State) :
    (expInit b x s).lb = s.lb := rfl
@[simp] theorem expInit_sq (b x : Elem) (s : State) :
    (expInit b x s).sq = reduce b.toNat := rfl
@[simp] theorem expInit_racc (b x : Elem) (s : State) :
    (expInit b x s).racc = 1 := rfl
@[simp] theorem expInit_e (b x : Elem) (s : State) :
    (expInit b x s).e = x := rfl
@[simp] theorem expInit_fault (b x : Elem) (s : State) :
    (expInit b x s).fault = s.fault := rfl
@[simp] theorem expInit_agenda (b x : Elem) (s : State) :
    (expInit b x s).agenda = s.agenda := rfl
@[simp] theorem expInit_replies (b x : Elem) (s : State) :
    (expInit b x s).replies = s.replies := rfl
@[simp] theorem expInit_draws (b x : Elem) (s : State) :
    (expInit b x s).draws = s.draws := rfl

/-! ### `expSquare` -/

@[simp] theorem expSquare_opa (s : State) :
    (expSquare s).opa = s.opa := rfl
@[simp] theorem expSquare_opb (s : State) :
    (expSquare s).opb = s.opb := rfl
@[simp] theorem expSquare_res (s : State) :
    (expSquare s).res = s.res := rfl
@[simp] theorem expSquare_opaW (s : State) :
    (expSquare s).opaW = s.opaW := rfl
@[simp] theorem expSquare_opbW (s : State) :
    (expSquare s).opbW = s.opbW := rfl
@[simp] theorem expSquare_status (s : State) :
    (expSquare s).status = s.status := rfl
@[simp] theorem expSquare_itercnt (s : State) :
    (expSquare s).itercnt = s.itercnt := rfl
@[simp] theorem expSquare_mulcnt (s : State) :
    (expSquare s).mulcnt = s.mulcnt + 1 := rfl
@[simp] theorem expSquare_ph (s : State) :
    (expSquare s).ph = s.ph := rfl
@[simp] theorem expSquare_lop (s : State) :
    (expSquare s).lop = s.lop := rfl
@[simp] theorem expSquare_la (s : State) :
    (expSquare s).la = s.la := rfl
@[simp] theorem expSquare_lb (s : State) :
    (expSquare s).lb = s.lb := rfl
@[simp] theorem expSquare_sq (s : State) :
    (expSquare s).sq = mulMod s.sq s.sq := rfl
@[simp] theorem expSquare_racc (s : State) :
    (expSquare s).racc = s.racc := rfl
@[simp] theorem expSquare_e (s : State) :
    (expSquare s).e = s.e := rfl
@[simp] theorem expSquare_fault (s : State) :
    (expSquare s).fault = s.fault := rfl
@[simp] theorem expSquare_agenda (s : State) :
    (expSquare s).agenda = s.agenda := rfl
@[simp] theorem expSquare_replies (s : State) :
    (expSquare s).replies = s.replies := rfl
@[simp] theorem expSquare_draws (s : State) :
    (expSquare s).draws = s.draws := rfl

/-! ### `writeOpa` -/

@[simp] theorem writeOpa_opa (k : Fin 8) (v : Word) (s : State) :
    (writeOpa k v s).opa = setWordOf s.opa k v := rfl
@[simp] theorem writeOpa_opb (k : Fin 8) (v : Word) (s : State) :
    (writeOpa k v s).opb = s.opb := rfl
@[simp] theorem writeOpa_res (k : Fin 8) (v : Word) (s : State) :
    (writeOpa k v s).res = s.res := rfl
@[simp] theorem writeOpa_opaW (k : Fin 8) (v : Word) (s : State) :
    (writeOpa k v s).opaW = setMark s.opaW k := rfl
@[simp] theorem writeOpa_opbW (k : Fin 8) (v : Word) (s : State) :
    (writeOpa k v s).opbW = s.opbW := rfl
@[simp] theorem writeOpa_status (k : Fin 8) (v : Word) (s : State) :
    (writeOpa k v s).status = s.status := rfl
@[simp] theorem writeOpa_itercnt (k : Fin 8) (v : Word) (s : State) :
    (writeOpa k v s).itercnt = s.itercnt := rfl
@[simp] theorem writeOpa_mulcnt (k : Fin 8) (v : Word) (s : State) :
    (writeOpa k v s).mulcnt = s.mulcnt := rfl
@[simp] theorem writeOpa_ph (k : Fin 8) (v : Word) (s : State) :
    (writeOpa k v s).ph = s.ph := rfl
@[simp] theorem writeOpa_lop (k : Fin 8) (v : Word) (s : State) :
    (writeOpa k v s).lop = s.lop := rfl
@[simp] theorem writeOpa_la (k : Fin 8) (v : Word) (s : State) :
    (writeOpa k v s).la = s.la := rfl
@[simp] theorem writeOpa_lb (k : Fin 8) (v : Word) (s : State) :
    (writeOpa k v s).lb = s.lb := rfl
@[simp] theorem writeOpa_sq (k : Fin 8) (v : Word) (s : State) :
    (writeOpa k v s).sq = s.sq := rfl
@[simp] theorem writeOpa_racc (k : Fin 8) (v : Word) (s : State) :
    (writeOpa k v s).racc = s.racc := rfl
@[simp] theorem writeOpa_e (k : Fin 8) (v : Word) (s : State) :
    (writeOpa k v s).e = s.e := rfl
@[simp] theorem writeOpa_fault (k : Fin 8) (v : Word) (s : State) :
    (writeOpa k v s).fault = s.fault := rfl
@[simp] theorem writeOpa_agenda (k : Fin 8) (v : Word) (s : State) :
    (writeOpa k v s).agenda = s.agenda := rfl
@[simp] theorem writeOpa_replies (k : Fin 8) (v : Word) (s : State) :
    (writeOpa k v s).replies = s.replies := rfl
@[simp] theorem writeOpa_draws (k : Fin 8) (v : Word) (s : State) :
    (writeOpa k v s).draws = s.draws := rfl

/-! ### `writeOpb` -/

@[simp] theorem writeOpb_opa (k : Fin 8) (v : Word) (s : State) :
    (writeOpb k v s).opa = s.opa := rfl
@[simp] theorem writeOpb_opb (k : Fin 8) (v : Word) (s : State) :
    (writeOpb k v s).opb = setWordOf s.opb k v := rfl
@[simp] theorem writeOpb_res (k : Fin 8) (v : Word) (s : State) :
    (writeOpb k v s).res = s.res := rfl
@[simp] theorem writeOpb_opaW (k : Fin 8) (v : Word) (s : State) :
    (writeOpb k v s).opaW = s.opaW := rfl
@[simp] theorem writeOpb_opbW (k : Fin 8) (v : Word) (s : State) :
    (writeOpb k v s).opbW = setMark s.opbW k := rfl
@[simp] theorem writeOpb_status (k : Fin 8) (v : Word) (s : State) :
    (writeOpb k v s).status = s.status := rfl
@[simp] theorem writeOpb_itercnt (k : Fin 8) (v : Word) (s : State) :
    (writeOpb k v s).itercnt = s.itercnt := rfl
@[simp] theorem writeOpb_mulcnt (k : Fin 8) (v : Word) (s : State) :
    (writeOpb k v s).mulcnt = s.mulcnt := rfl
@[simp] theorem writeOpb_ph (k : Fin 8) (v : Word) (s : State) :
    (writeOpb k v s).ph = s.ph := rfl
@[simp] theorem writeOpb_lop (k : Fin 8) (v : Word) (s : State) :
    (writeOpb k v s).lop = s.lop := rfl
@[simp] theorem writeOpb_la (k : Fin 8) (v : Word) (s : State) :
    (writeOpb k v s).la = s.la := rfl
@[simp] theorem writeOpb_lb (k : Fin 8) (v : Word) (s : State) :
    (writeOpb k v s).lb = s.lb := rfl
@[simp] theorem writeOpb_sq (k : Fin 8) (v : Word) (s : State) :
    (writeOpb k v s).sq = s.sq := rfl
@[simp] theorem writeOpb_racc (k : Fin 8) (v : Word) (s : State) :
    (writeOpb k v s).racc = s.racc := rfl
@[simp] theorem writeOpb_e (k : Fin 8) (v : Word) (s : State) :
    (writeOpb k v s).e = s.e := rfl
@[simp] theorem writeOpb_fault (k : Fin 8) (v : Word) (s : State) :
    (writeOpb k v s).fault = s.fault := rfl
@[simp] theorem writeOpb_agenda (k : Fin 8) (v : Word) (s : State) :
    (writeOpb k v s).agenda = s.agenda := rfl
@[simp] theorem writeOpb_replies (k : Fin 8) (v : Word) (s : State) :
    (writeOpb k v s).replies = s.replies := rfl
@[simp] theorem writeOpb_draws (k : Fin 8) (v : Word) (s : State) :
    (writeOpb k v s).draws = s.draws := rfl

/-! ### `hardReset` -/

@[simp] theorem hardReset_opa (s : State) :
    (hardReset s).opa = Config.unspecifiedElem s.draws := rfl
@[simp] theorem hardReset_opb (s : State) :
    (hardReset s).opb = Config.unspecifiedElem (s.draws + 1) := rfl
@[simp] theorem hardReset_res (s : State) :
    (hardReset s).res = Config.unspecifiedElem (s.draws + 2) := rfl
@[simp] theorem hardReset_opaW (s : State) :
    (hardReset s).opaW = 0 := rfl
@[simp] theorem hardReset_opbW (s : State) :
    (hardReset s).opbW = 0 := rfl
@[simp] theorem hardReset_status (s : State) :
    (hardReset s).status = 0 := rfl
@[simp] theorem hardReset_itercnt (s : State) :
    (hardReset s).itercnt = 0 := rfl
@[simp] theorem hardReset_mulcnt (s : State) :
    (hardReset s).mulcnt = 0 := rfl
@[simp] theorem hardReset_ph (s : State) :
    (hardReset s).ph = .idle := rfl
@[simp] theorem hardReset_lop (s : State) :
    (hardReset s).lop = Op.ofWord (Config.unspecifiedCommand s.draws) := rfl
@[simp] theorem hardReset_la (s : State) :
    (hardReset s).la = Config.unspecifiedElem (s.draws + 3) := rfl
@[simp] theorem hardReset_lb (s : State) :
    (hardReset s).lb = Config.unspecifiedElem (s.draws + 4) := rfl
@[simp] theorem hardReset_sq (s : State) :
    (hardReset s).sq = Config.unspecifiedElem (s.draws + 5) := rfl
@[simp] theorem hardReset_racc (s : State) :
    (hardReset s).racc = Config.unspecifiedElem (s.draws + 6) := rfl
@[simp] theorem hardReset_e (s : State) :
    (hardReset s).e = Config.unspecifiedElem (s.draws + 7) := rfl
@[simp] theorem hardReset_fault (s : State) :
    (hardReset s).fault = s.fault := rfl
@[simp] theorem hardReset_agenda (s : State) :
    (hardReset s).agenda = s.agenda := rfl
@[simp] theorem hardReset_replies (s : State) :
    (hardReset s).replies = s.replies := rfl
@[simp] theorem hardReset_draws (s : State) :
    (hardReset s).draws = s.draws + 8 := rfl

end Sys2Proof.Machine
end

