-- ==== Sys2Proof/Laws/Ops.lean ====
section
/-! SUPPORT. One lemma per shared operation that says all it can do: setting a fault (R101), the checks and the latches of
a CMD write (R59), a command run at once (R66), and what the STATUS words say (R24). -/

namespace Sys2Proof.Machine

open Sys2Proof.Safety

/-! ### Setting a fault -/

theorem raiseFault_of_none {r : Fault} {s : State} (h : s.fault = none) :
    raiseFault r s = { s with fault := some r } := by
  simp [raiseFault, h]

theorem raiseFault_of_some {r q : Fault} {s : State} (h : s.fault = some q) : raiseFault r s = s := by
  cases s
  simp_all [raiseFault]

/-- Setting a fault leaves FAULT set. -/
theorem raiseFault_fault_ne_none (r : Fault) (s : State) : (raiseFault r s).fault ≠ none := by
  unfold raiseFault
  cases h : s.fault <;> simp

/-! ### The STATUS words -/

@[simp] theorem statusErr_divisionByZero : statusErr ArchError.divisionByZero.code = 0x00000016 := by decide

@[simp] theorem statusErr_illegalCommand : statusErr ArchError.illegalCommand.code = 0x00000026 := by decide

theorem busy_of_status {s : State} {w : Word} (h : s.status = w) : s.busy = w.getLsbD 0 := by
  rw [State.busy, h]

theorem rvalid_of_status {s : State} {w : Word} (h : s.status = w) : s.rvalid = w.getLsbD 3 := by
  rw [State.rvalid, h]

@[simp] theorem latch_busy (op : Op) (s : State) : (latch op s).busy = true := by
  rw [busy_of_status (latch_status op s)]
  decide

@[simp] theorem completeOk_busy (r : Elem) (s : State) : (completeOk r s).busy = false := by
  rw [busy_of_status (completeOk_status r s)]
  decide

@[simp] theorem raise_busy (x : ArchError) (s : State) : (raise x s).busy = false := by
  rw [busy_of_status (raise_status x s)]
  cases x <;> decide

@[simp] theorem hardReset_busy (s : State) : (hardReset s).busy = false := by
  rw [busy_of_status (hardReset_status s)]
  decide

@[simp] theorem raiseFault_busy (r : Fault) (s : State) : (raiseFault r s).busy = s.busy := rfl

/-! ### The checks of a CMD write -/

/-- A CMD write passes its checks exactly when the core is idle and the operands are written (R59). -/
theorem startFault_eq_none_iff (op : Op) (s : State) :
    startFault op s = none ↔ s.busy = false ∧ OperandsWritten op s := by
  have hA := allMarked_iff s.opaW
  have hB := allMarked_iff s.opbW
  unfold startFault OperandsWritten Written
  cases hb : s.busy <;> cases ha : op.readsA <;> cases hc : op.readsB <;>
    cases hma : allMarked s.opaW <;> cases hmb : allMarked s.opbW <;> simp_all

theorem startFault_of_busy (op : Op) {s : State} (h : s.busy = true) :
    startFault op s = some .commandWhileBusy := by
  simp [startFault, h]

/-- A check that fails on an idle core is the check of an operand. -/
theorem startFault_idle_cases (op : Op) {s : State} (h : s.busy = false) :
    startFault op s = none ∨ startFault op s = some .unwrittenOperand := by
  unfold startFault
  cases op.readsA <;> cases op.readsB <;> cases allMarked s.opaW <;> cases allMarked s.opbW <;> simp [h]

theorem startFault_of_ready {op : Op} {s : State} (h : Ready op s) : startFault op s = none :=
  (startFault_eq_none_iff op s).2 h.2

theorem startCommand_of_ready {op : Op} {s : State} (h : Ready op s) : startCommand op s = latch op s := by
  simp [startCommand, startFault_of_ready h]

/-- A CMD write sets a model fault and nothing else, or starts the command. -/
theorem startCommand_cases (op : Op) (s : State) :
    (∃ r, startFault op s = some r ∧ startCommand op s = raiseFault r s) ∨
    (startFault op s = none ∧ startCommand op s = latch op s) := by
  unfold startCommand
  cases startFault op s with
  | none => exact .inr ⟨rfl, rfl⟩
  | some r => exact .inl ⟨r, rfl, rfl⟩

/-! ### A command run at once -/

/-- From a state that is ready for it, a command starts and runs. -/
theorem issue_of_ready {op : Op} {run : State → State} {s : State} (h : Ready op s) :
    issue op run s = .next (run (latch op s)) := by
  have hf : s.fault = none := h.1
  simp [issue, hf, startFault_of_ready h]

/-- All that a command run at once can do when it answers a next state. -/
theorem issue_cases {op : Op} {run : State → State} {s t : State} (h : issue op run s = .next t) :
    s.fault = none ∧
    ((∃ r, startFault op s = some r ∧ t = { s with fault := some r }) ∨
      (startFault op s = none ∧ t = run (latch op s))) := by
  unfold issue at h
  cases hf : s.fault with
  | some r => simp [hf] at h
  | none =>
    refine ⟨rfl, ?_⟩
    cases hc : startFault op s with
    | some r =>
      simp only [hf, hc, Host.Outcome.next.injEq] at h
      exact .inl ⟨r, rfl, by rw [← h, raiseFault_of_none hf]⟩
    | none =>
      simp only [hf, hc, Host.Outcome.next.injEq] at h
      exact .inr ⟨rfl, h.symm⟩

theorem issue_of_fault {op : Op} {run : State → State} {s : State} {r : Fault} (h : s.fault = some r) :
    issue op run s = .fault r := by
  simp [issue, h]

/-! ### Decoding for LOP -/

theorem ofWord_of_ok {v : Word} {i : Instr} (h : decode v = .ok i) : Op.ofWord v = .legal i := by
  simp [Op.ofWord, h]

theorem ofWord_of_not_ok {v : Word} (h : ∀ i, decode v ≠ .ok i) : Op.ofWord v = .illegal := by
  unfold Op.ofWord
  cases hd : decode v with
  | ok i => exact absurd hd (h i)
  | error _ => rfl

@[simp] theorem ofWord_encode (i : Instr) : Op.ofWord (encode i) = .legal i := by
  cases i <;> decide

@[simp] theorem readsA_legal (i : Instr) : (Op.legal i).readsA = true := by
  cases i <;> rfl

theorem readsB_legal (i : Instr) : (Op.legal i).readsB = true ↔ i ≠ .inv := by
  cases i <;> simp [Op.readsB]

end Sys2Proof.Machine
end

