-- ==== Sys2Proof/Laws/Engine.lean ====
section
/-! SUPPORT. What the engine's operations do to each field (R73 to R75), and that the loop and the command's other
operations leave the rest of the state alone. -/

namespace Sys2Proof.Machine

/-- All that one iteration does (R74). -/
theorem expIterate_eq (s : State) :
    expIterate s = { s with
      racc := if s.e.getLsbD 0 = true then mulMod s.racc s.sq else s.racc
      sq := mulMod s.sq s.sq
      e := s.e >>> 1
      mulcnt := if s.e.getLsbD 0 = true then s.mulcnt + 1 + 1 else s.mulcnt + 1
      itercnt := s.itercnt + 1 } := by
  unfold expIterate expMultiply
  by_cases h : s.e.getLsbD 0 = true
  · simp only [h, if_true]
    rfl
  · simp only [h]
    rfl

@[simp] theorem expIterate_racc (s : State) :
    (expIterate s).racc = if s.e.getLsbD 0 = true then mulMod s.racc s.sq else s.racc := by
  rw [expIterate_eq]

@[simp] theorem expIterate_sq (s : State) : (expIterate s).sq = mulMod s.sq s.sq := by
  rw [expIterate_eq]

@[simp] theorem expIterate_e (s : State) : (expIterate s).e = s.e >>> 1 := by
  rw [expIterate_eq]

@[simp] theorem expIterate_itercnt (s : State) : (expIterate s).itercnt = s.itercnt + 1 := by
  rw [expIterate_eq]

@[simp] theorem expIterate_mulcnt (s : State) :
    (expIterate s).mulcnt = if s.e.getLsbD 0 = true then s.mulcnt + 1 + 1 else s.mulcnt + 1 := by
  rw [expIterate_eq]

/-- An update of the engine's own registers and counters alone: every other field of `t` is that of `s`. -/
def OnlyEngineMoved (s t : State) : Prop :=
  t = { s with sq := t.sq, racc := t.racc, e := t.e, itercnt := t.itercnt, mulcnt := t.mulcnt }

theorem OnlyEngineMoved.refl (s : State) : OnlyEngineMoved s s := rfl

theorem OnlyEngineMoved.trans {s t u : State} (h₁ : OnlyEngineMoved s t) (h₂ : OnlyEngineMoved t u) :
    OnlyEngineMoved s u := by
  unfold OnlyEngineMoved at *
  rw [h₂, h₁]

/-- An iteration moves the engine alone. -/
theorem expIterate_onlyEngineMoved (s : State) : OnlyEngineMoved s (expIterate s) := by
  unfold OnlyEngineMoved
  rw [expIterate_eq]

/-- The loop moves the engine alone. -/
theorem expIterations_onlyEngineMoved (n : Nat) (s : State) : OnlyEngineMoved s (expIterations n s) := by
  induction n generalizing s with
  | zero => exact .refl s
  | succ n ih =>
    unfold expIterations
    split
    · exact .refl s
    · exact (expIterate_onlyEngineMoved s).trans (ih _)

/-- The loop ends with E = 0 when it is given enough iterations (R79). -/
theorem expIterations_e (n : Nat) (s : State) (h : Safety.bitlen s.e ≤ n) : (expIterations n s).e = 0 := by
  induction n generalizing s with
  | zero => exact (Safety.bitlen_eq_zero_iff _).1 (Nat.le_zero.1 h)
  | succ n ih =>
    unfold expIterations
    split
    · assumption
    · rename_i hne
      apply ih
      have := Safety.bitlen_shift s.e hne
      rw [expIterate_e]
      omega

/-- ExpExit of EXP and INV completes, of DIV asks for the final product (R75). -/
theorem expExit_of_exp {s : State} (h : s.lop = .legal .exp) : expExit s = completeOk s.racc s := by
  simp [expExit, h]

theorem expExit_of_inv {s : State} (h : s.lop = .legal .inv) : expExit s = completeOk s.racc s := by
  simp [expExit, h]

theorem expExit_of_div {s : State} (h : s.lop = .legal .div) : expExit s = { s with ph := .divFinal } := by
  simp [expExit, h]

/-- The engine runs from the loop's entry. -/
theorem runEngine_of_expLoop {s : State} (h : s.ph = .expLoop) :
    runEngine s = expExit (expIterations Config.W s) := by
  simp [runEngine, h]

/-- The engine does nothing where the Start step has completed the command. -/
theorem runEngine_of_idle {s : State} (h : s.ph = .idle) : runEngine s = s := by
  simp [runEngine, h]

theorem finishDiv_of_divFinal {s : State} (h : s.ph = .divFinal) : finishDiv s = divFinalStep s := by
  simp [finishDiv, h]

theorem finishDiv_of_idle {s : State} (h : s.ph = .idle) : finishDiv s = s := by
  simp [finishDiv, h]

theorem invStart_of_zero {s : State} (h : s.la.toNat % Config.P = 0) : invStart s = raise .divisionByZero s := by
  simp [invStart, (zeroResidue_iff s.la).2 h]

theorem invStart_of_nonzero {s : State} (h : s.la.toNat % Config.P ≠ 0) :
    invStart s = expInit s.la fermatExponent s := by
  have hz : zeroResidue s.la = false := by
    rw [Bool.eq_false_iff]
    exact fun hz => h ((zeroResidue_iff _).1 hz)
  simp [invStart, hz]

theorem divStart_of_zero {s : State} (h : s.lb.toNat % Config.P = 0) : divStart s = raise .divisionByZero s := by
  simp [divStart, (zeroResidue_iff s.lb).2 h]

theorem divStart_of_nonzero {s : State} (h : s.lb.toNat % Config.P ≠ 0) :
    divStart s = expInit s.lb fermatExponent s := by
  have hz : zeroResidue s.lb = false := by
    rw [Bool.eq_false_iff]
    exact fun hz => h ((zeroResidue_iff _).1 hz)
  simp [divStart, hz]

end Sys2Proof.Machine
end

