-- ==== Sys2Proof/Laws/Step.lean ====
section
/-! SUPPORT. What a Unit step, a host access and a step of the machine can do, said once (R41, R42, R60). -/

namespace Sys2Proof.Machine

/-! ### The Unit -/

theorem unitStep_of_idle {s : State} (h : s.ph = .idle) : unitStep s = s := by
  simp [unitStep, h]

theorem unitStep_of_start {s : State} (h : s.ph = .start) : unitStep s = startStep s := by
  simp [unitStep, h]

theorem unitStep_of_loop {s : State} (h : s.ph = .expLoop) (he : s.e ≠ 0) : unitStep s = expIterate s := by
  simp only [unitStep, h, if_neg he]

theorem unitStep_of_exit {s : State} (h : s.ph = .expLoop) (he : s.e = 0) : unitStep s = expExit s := by
  simp only [unitStep, h, if_pos he]

theorem unitStep_of_divFinal {s : State} (h : s.ph = .divFinal) : unitStep s = divFinalStep s := by
  simp [unitStep, h]

/-- What any unit step leaves alone: the operand registers and their marks, the latches, FAULT and the model's own
fields (R18, R30, R60). -/
theorem unitStep_frame (s : State) :
    (unitStep s).opa = s.opa ∧ (unitStep s).opb = s.opb ∧ (unitStep s).opaW = s.opaW ∧
    (unitStep s).opbW = s.opbW ∧ (unitStep s).lop = s.lop ∧ (unitStep s).la = s.la ∧ (unitStep s).lb = s.lb ∧
    (unitStep s).fault = s.fault ∧ (unitStep s).agenda = s.agenda ∧ (unitStep s).replies = s.replies ∧
    (unitStep s).draws = s.draws := by
  unfold unitStep
  split
  · simp
  · unfold startStep
    split <;> (try unfold invStart) <;> (try unfold divStart) <;> (try split) <;>
      simp [addStart, subStart, mulStart, expStart, illegalStart]
  · split
    · unfold expExit
      split <;> simp
    · rw [expIterate_eq]
      simp
  · simp [divFinalStep]

theorem unitSteps_zero (s : State) : unitSteps 0 s = s := rfl

theorem unitSteps_succ (n : Nat) (s : State) : unitSteps (n + 1) s = unitSteps n (unitStep s) := rfl

theorem unitSteps_add (m n : Nat) (s : State) : unitSteps (m + n) s = unitSteps n (unitSteps m s) := by
  induction m generalizing s with
  | zero => rw [Nat.zero_add, unitSteps_zero]
  | succ m ih => rw [Nat.succ_add, unitSteps_succ, ih, unitSteps_succ]

/-- A completed command takes no more steps (R60). -/
theorem unitSteps_of_idle (n : Nat) {s : State} (h : s.ph = .idle) : unitSteps n s = s := by
  induction n with
  | zero => rfl
  | succ n ih => rw [unitSteps_succ, unitStep_of_idle h, ih]

/-- What any number of unit steps leaves alone. -/
theorem unitSteps_frame (n : Nat) (s : State) :
    (unitSteps n s).opa = s.opa ∧ (unitSteps n s).opb = s.opb ∧ (unitSteps n s).opaW = s.opaW ∧
    (unitSteps n s).opbW = s.opbW ∧ (unitSteps n s).lop = s.lop ∧ (unitSteps n s).la = s.la ∧
    (unitSteps n s).lb = s.lb ∧ (unitSteps n s).fault = s.fault ∧ (unitSteps n s).agenda = s.agenda ∧
    (unitSteps n s).replies = s.replies ∧ (unitSteps n s).draws = s.draws := by
  induction n generalizing s with
  | zero => simp [unitSteps_zero]
  | succ n ih =>
    rw [unitSteps_succ]
    have h1 := ih (unitStep s)
    have h2 := unitStep_frame s
    simp_all

/-! ### The Host -/

/-- All that a write of the window can do (R41). -/
theorem memWrite_cases (off : Offset) (size : Nat) (v : Word) (s : State) :
    memWrite off size v s = raiseFault .illegalAccess s ∨
    (regAt off = .cmd ∧ memWrite off size v s = commandWrite v s) ∨
    (∃ k, regAt off = .opa k ∧ memWrite off size v s = writeOpa k v s) ∨
    (∃ k, regAt off = .opb k ∧ memWrite off size v s = writeOpb k v s) := by
  unfold memWrite
  split
  · cases h : regAt off <;> simp
  · exact .inl rfl

/-- All that a read of the window can do (R42). -/
theorem memRead_cases (off : Offset) (size : Nat) (s : State) :
    (∃ v, readAnswer off size s = .value v ∧ memRead off size s = { s with replies := v :: s.replies }) ∨
    (readAnswer off size s = .draw ∧ s.busy = true ∧
      memRead off size s =
        { s with replies := Config.draw s.draws :: s.replies, draws := s.draws + 1 }) ∨
    (∃ r, readAnswer off size s = .fault r ∧ memRead off size s = raiseFault r s) := by
  unfold memRead
  cases h : readAnswer off size s with
  | value v => exact .inl ⟨v, rfl, rfl⟩
  | fault r => exact .inr (.inr ⟨r, rfl, rfl⟩)
  | draw =>
    refine .inr (.inl ⟨rfl, ?_, rfl⟩)
    unfold readAnswer readReg at h
    by_contra hb
    have hb' : s.busy = false := by simpa using hb
    split at h
    · split at h <;> simp_all <;> split at h <;> simp_all
    · simp at h

/-! ### A step -/

/-- All that a step can do when it answers a next state: which entry it took, and what that entry did. -/
theorem step_cases {s t : State} (h : step s = .next t) :
    (s.agenda = [] ∧ s.fault = none ∧ t = unitStep s) ∨
    ∃ ev rest, s.agenda = ev :: rest ∧
      ((ev = .unit ∧ s.fault = none ∧ t = unitStep { s with agenda := rest }) ∨
       (∃ a, ev = .access a ∧ s.fault = none ∧ t = access a { s with agenda := rest }) ∨
       (ev = .reset ∧ t = hardReset { s with agenda := rest }) ∨
       (∃ v, ev = .command v ∧
        ((∃ i, decode v = .ok i ∧ exec i { s with agenda := rest } = .next t) ∨
         ((∀ i, decode v ≠ .ok i) ∧ execIllegal { s with agenda := rest } = .next t)))) := by
  unfold step nextEvent at h
  cases hag : s.agenda with
  | nil =>
    simp only [hag, unitTurn] at h
    cases hf : s.fault with
    | some r => simp [hf] at h
    | none => exact .inl ⟨rfl, rfl, by simpa [hf] using h.symm⟩
  | cons ev rest =>
    refine .inr ⟨ev, rest, rfl, ?_⟩
    simp only [hag] at h
    cases ev with
    | unit =>
      simp only [unitTurn] at h
      cases hf : s.fault with
      | some r => simp [hf] at h
      | none => exact .inl ⟨rfl, rfl, by simpa [hf] using h.symm⟩
    | access a =>
      simp only [hostTurn] at h
      cases hf : s.fault with
      | some r => simp [hf] at h
      | none => exact .inr (.inl ⟨a, rfl, rfl, by simpa [hf] using h.symm⟩)
    | reset => exact .inr (.inr (.inl ⟨rfl, by simpa using h.symm⟩))
    | command v =>
      refine .inr (.inr (.inr ⟨v, rfl, ?_⟩))
      cases hd : decode v with
      | ok i => exact .inl ⟨i, rfl, by simpa [hd] using h⟩
      | error x => exact .inr ⟨by simp, by simpa [hd] using h⟩

/-! ### Turns and runs -/

theorem hostTurn_of_none {a : Access} {s : State} (h : s.fault = none) : hostTurn a s = .next (access a s) := by
  simp [hostTurn, h]

theorem unitTurn_of_none {s : State} (h : s.fault = none) : unitTurn s = .next (unitStep s) := by
  simp [unitTurn, h]

/-- A run of one step more, where that step answers a next state, of any machine. -/
theorem core_run_succ (M : Host.Core) {s t : M.State} (n : Nat) (h : M.step s = .next t) :
    M.run (n + 1) s = M.run n t := by
  rw [Host.Core.run, h]

theorem run_zero (s : State) : core.run 0 s = .next s := rfl

/-- A run of one step more, where that step answers a next state. -/
theorem run_succ {s t : State} (n : Nat) (h : step s = .next t) : core.run (n + 1) s = core.run n t :=
  core_run_succ core n h

end Sys2Proof.Machine
end

