-- ==== Sys2Proof/Laws/Bus.lean ====
section
/-! SUPPORT. The window, offset by offset: what the register map names (R40), what a read answers (R42), what a write does
(R41, R46), and the bytes of a word (R44). -/

namespace Sys2Proof.Machine

/-! ### The register map -/

theorem regAt_opa (k : Fin 8) : regAt (BitVec.ofNat 8 (0x20 + 4 * k)) = .opa k := by decide +revert

theorem regAt_opb (k : Fin 8) : regAt (BitVec.ofNat 8 (0x40 + 4 * k)) = .opb k := by decide +revert

theorem regAt_res (k : Fin 8) : regAt (BitVec.ofNat 8 (0x60 + 4 * k)) = .res k := by decide +revert

theorem regAt_pmod (k : Fin 8) : regAt (BitVec.ofNat 8 (0x80 + 4 * k)) = .pmod k := by decide +revert

/-- Only offsets below 0x04 name CMD, only offsets from 0x20 to 0x5F an operand word (R40). -/
theorem regAt_writable (off : Offset) :
    (regAt off = .cmd → off.toNat < 0x04) ∧
    ((∃ k, regAt off = .opa k) → 0x20 ≤ off.toNat ∧ off.toNat < 0x40) ∧
    ((∃ k, regAt off = .opb k) → 0x40 ≤ off.toNat ∧ off.toNat < 0x60) := by
  unfold regAt
  simp only
  split_ifs <;> refine ⟨?_, ?_, ?_⟩ <;> simp_all

/-- The reserved offsets, and CMD's (R40). -/
theorem regAt_reserved {off : Offset} (h : (0x10 ≤ off.toNat ∧ off.toNat < 0x20) ∨ 0xA0 ≤ off.toNat) :
    regAt off = .reserved := by
  unfold regAt
  simp only
  split_ifs <;> first | rfl | omega

/-! ### The form of an access -/

theorem wellFormed_iff (a : Access) : a.wellFormed = true ↔ a.size = 4 ∧ a.off.toNat % 4 = 0 := by
  unfold Access.wellFormed Access.sizeOk Access.alignOk
  simp

theorem wordOffset_mod (b : Nat) (hb : b % 4 = 0) (k : Fin 8) :
    (BitVec.ofNat 8 (b + 4 * k)).toNat % 4 = 0 := by
  rw [BitVec.toNat_ofNat]
  have := k.isLt
  omega

/-! ### Reads -/

/-- A read whose form is right asks its register (R42). -/
theorem readAnswer_of_aligned {off : Offset} (h : off.toNat % 4 = 0) (s : State) :
    readAnswer off 4 s = readReg (regAt off) s :=
  if_pos ((wellFormed_iff (.read off 4)).2 ⟨rfl, h⟩)

/-- A read whose form is wrong is illegal (R39). -/
theorem readAnswer_of_malformed {off : Offset} {size : Nat} (h : size ≠ 4 ∨ off.toNat % 4 ≠ 0) (s : State) :
    readAnswer off size s = .fault .illegalAccess := by
  refine if_neg fun hw => ?_
  have := (wellFormed_iff (.read off size)).1 hw
  rcases h with h | h
  · exact h this.1
  · exact h this.2

theorem readAnswer_status (s : State) : readAnswer 0x04 4 s = .value s.status := rfl

theorem readAnswer_itercnt (s : State) :
    readAnswer 0x08 4 s = if s.busy = true then .draw else .value s.itercnt := rfl

theorem readAnswer_mulcnt (s : State) :
    readAnswer 0x0C 4 s = if s.busy = true then .draw else .value s.mulcnt := rfl

theorem readAnswer_opa (k : Fin 8) (s : State) :
    readAnswer (BitVec.ofNat 8 (0x20 + 4 * k)) 4 s =
      if marked s.opaW k = true then .value (wordOf s.opa k) else .fault .unwrittenRead := by
  rw [readAnswer_of_aligned (wordOffset_mod _ (by decide) k), regAt_opa, readReg]

theorem readAnswer_opb (k : Fin 8) (s : State) :
    readAnswer (BitVec.ofNat 8 (0x40 + 4 * k)) 4 s =
      if marked s.opbW k = true then .value (wordOf s.opb k) else .fault .unwrittenRead := by
  rw [readAnswer_of_aligned (wordOffset_mod _ (by decide) k), regAt_opb, readReg]

theorem readAnswer_res (k : Fin 8) (s : State) :
    readAnswer (BitVec.ofNat 8 (0x60 + 4 * k)) 4 s =
      if s.rvalid = true then .value (wordOf s.res k) else .fault .invalidResultRead := by
  rw [readAnswer_of_aligned (wordOffset_mod _ (by decide) k), regAt_res, readReg]

theorem readAnswer_pmod (k : Fin 8) (s : State) :
    readAnswer (BitVec.ofNat 8 (0x80 + 4 * k)) 4 s = .value (wordOf pmod k) := by
  rw [readAnswer_of_aligned (wordOffset_mod _ (by decide) k), regAt_pmod, readReg]

/-- What a read answers rests on the registers the window shows and on nothing else (R32). -/
theorem readAnswer_congr {s t : State} (off : Offset) (size : Nat) (hs : s.status = t.status)
    (hi : s.itercnt = t.itercnt) (hm : s.mulcnt = t.mulcnt) (ha : s.opa = t.opa) (haw : s.opaW = t.opaW)
    (hb : s.opb = t.opb) (hbw : s.opbW = t.opbW) (hr : s.res = t.res) :
    readAnswer off size s = readAnswer off size t := by
  unfold readAnswer readReg State.busy State.rvalid
  rw [hs, hi, hm, ha, haw, hb, hbw, hr]

/-! ### Writes -/

/-- A write whose form is right, by its register (R41). -/
theorem memWrite_of_aligned {off : Offset} (h : off.toNat % 4 = 0) (v : Word) (s : State) :
    memWrite off 4 v s =
      match regAt off with
      | .cmd => commandWrite v s
      | .opa k => writeOpa k v s
      | .opb k => writeOpb k v s
      | .status | .itercnt | .mulcnt | .res _ | .pmod _ | .reserved => raiseFault .illegalAccess s :=
  if_pos ((wellFormed_iff (.write off 4 v)).2 ⟨rfl, h⟩)

theorem memWrite_of_malformed {off : Offset} {size : Nat} (h : size ≠ 4 ∨ off.toNat % 4 ≠ 0) (v : Word)
    (s : State) : memWrite off size v s = raiseFault .illegalAccess s := by
  refine if_neg fun hw => ?_
  have := (wellFormed_iff (.write off size v)).1 hw
  rcases h with h | h
  · exact h this.1
  · exact h this.2

theorem memWrite_cmd (v : Word) (s : State) : memWrite 0x00 4 v s = commandWrite v s := rfl

theorem memWrite_opa (k : Fin 8) (v : Word) (s : State) :
    memWrite (BitVec.ofNat 8 (0x20 + 4 * k)) 4 v s = writeOpa k v s := by
  rw [memWrite_of_aligned (wordOffset_mod _ (by decide) k), regAt_opa]

theorem memWrite_opb (k : Fin 8) (v : Word) (s : State) :
    memWrite (BitVec.ofNat 8 (0x40 + 4 * k)) 4 v s = writeOpb k v s := by
  rw [memWrite_of_aligned (wordOffset_mod _ (by decide) k), regAt_opb]

/-- A write below OPA's words but at CMD, or above OPB's, is illegal (R46). -/
theorem memWrite_of_readOnly {off : Offset} {size : Nat} (h : off ≠ 0x00)
    (hr : off.toNat < 0x20 ∨ 0x60 ≤ off.toNat) (v : Word) (s : State) :
    memWrite off size v s = raiseFault .illegalAccess s := by
  by_cases hm : size ≠ 4 ∨ off.toNat % 4 ≠ 0
  · exact memWrite_of_malformed hm v s
  · have hne : off.toNat ≠ 0 := fun hz => h (BitVec.eq_of_toNat_eq hz)
    obtain ⟨hc, ha, hb⟩ := regAt_writable off
    rcases memWrite_cases off size v s with hw | ⟨hw, _⟩ | ⟨k, hw, _⟩ | ⟨k, hw, _⟩
    · exact hw
    · have := hc hw
      omega
    · have := ha ⟨k, hw⟩
      omega
    · have := hb ⟨k, hw⟩
      omega

/-! ### Bytes of a word -/

/-- The four bytes of a word are the ones it is made of (R44). -/
theorem wordToBytes_bytesToWord (b0 b1 b2 b3 : Byte) :
    wordToBytes (bytesToWord b0 b1 b2 b3) = [b0, b1, b2, b3] := by
  unfold wordToBytes byteOf bytesToWord
  simp only [List.cons.injEq, and_true]
  refine ⟨?_, ?_, ?_, ?_⟩ <;>
  · apply BitVec.eq_of_getLsbD_eq
    intro j hj
    simp only [BitVec.getLsbD_extractLsb', BitVec.getLsbD_append]
    interval_cases j <;> simp

/-- A word is known from its four bytes (R44). -/
theorem bytesToWord_byteOf (v : Word) : bytesToWord (byteOf v 0) (byteOf v 1) (byteOf v 2) (byteOf v 3) = v := by
  unfold byteOf bytesToWord
  apply BitVec.eq_of_getLsbD_eq
  intro j hj
  simp only [BitVec.getLsbD_extractLsb', BitVec.getLsbD_append]
  interval_cases j <;> simp

end Sys2Proof.Machine
end

