-- ==== Sys2Proof/Laws/HostScript.lean ====
section
/-! SUPPORT. The host's variables: an assignment sets its variable, leaves the others, and ends an earlier one. -/

namespace Sys2Proof.Machine

theorem assign_assign (x : Var) (v w : Word) (vars : List (Var × Word)) :
    assign x w (assign x v vars) = assign x w vars := by
  induction vars with
  | nil => simp [assign]
  | cons p vars ih =>
    obtain ⟨y, u⟩ := p
    simp only [assign]
    split
    · simp [assign]
    · split
      · simp [assign]
      · simp_all [assign]

theorem assign_lookup_same (x : Var) (v : Word) (vars : List (Var × Word)) :
    (assign x v vars).lookup x = some v := by
  induction vars with
  | nil => simp [assign]
  | cons p vars ih =>
    obtain ⟨y, u⟩ := p
    simp only [assign]
    split
    · simp
    · split
      · simp
      · rename_i hne
        have hb : (x == y) = false := by simp [hne]
        simp [List.lookup_cons, hb, ih]

theorem assign_lookup_other {x y : Var} (v : Word) (vars : List (Var × Word)) (h : y ≠ x) :
    (assign x v vars).lookup y = vars.lookup y := by
  have hb : (y == x) = false := by simp [h]
  induction vars with
  | nil => simp [assign, List.lookup_cons, hb]
  | cons p vars ih =>
    obtain ⟨z, u⟩ := p
    simp only [assign]
    split
    · simp [List.lookup_cons, hb]
    · split
      · subst x
        simp [List.lookup_cons, hb]
      · simp [List.lookup_cons, ih]

end Sys2Proof.Machine
end

