-- ==== Sys2Proof/Laws/PerInstr.lean ====
section
/-! SUPPORT. What holds of each command's word, constructor by constructor (R55, R56, R58). -/

namespace Sys2Proof.Laws.Encoding

/-- The word of a command has RSVD zero and its own OP, one of 0 to 5, and the command is well formed. -/
def Statement (i : Instr) : Prop :=
  rsvdField (encode i) = 0 ∧ opField (encode i) = opcode i ∧ (opcode i).toNat ≤ 5 ∧ i.wellFormed = true

theorem add : Statement .add := ⟨by decide, by decide, by decide, rfl⟩

theorem sub : Statement .sub := ⟨by decide, by decide, by decide, rfl⟩

theorem mul : Statement .mul := ⟨by decide, by decide, by decide, rfl⟩

theorem inv : Statement .inv := ⟨by decide, by decide, by decide, rfl⟩

theorem div : Statement .div := ⟨by decide, by decide, by decide, rfl⟩

theorem exp : Statement .exp := ⟨by decide, by decide, by decide, rfl⟩

end Sys2Proof.Laws.Encoding
end

