-- ==== Sys2Proof/Laws/Prime.lean ====
section
/-! SUPPORT. P is prime (R3), from a chain of certificates that the kernel checks. The laws of INV and DIV (R86) rest on
it. -/

namespace Sys2Proof.Safety

/-- `b ^ x mod n` by squaring, for `x` below 2^f. -/
def powModBelow : Nat → Nat → Nat → Nat → Nat
  | 0, _, _, n => 1 % n
  | f + 1, b, x, n =>
    if x % 2 = 1 then b * powModBelow f (b * b % n) (x / 2) n % n else powModBelow f (b * b % n) (x / 2) n

theorem powModBelow_eq (f b x n : Nat) (h : x < 2 ^ f) : powModBelow f b x n = b ^ x % n := by
  induction f generalizing b x with
  | zero =>
    have : x = 0 := by simpa using h
    simp [powModBelow, this]
  | succ f ih =>
    have hx : x / 2 < 2 ^ f := by omega
    have hsq : (b * b % n) ^ (x / 2) % n = b ^ (2 * (x / 2)) % n := by
      rw [← Nat.pow_mod, pow_mul, sq]
    unfold powModBelow
    rw [ih _ _ hx, hsq]
    split
    · rename_i hodd
      have hx' : x = 2 * (x / 2) + 1 := by omega
      conv_rhs => rw [hx', pow_succ']
      rw [Nat.mul_mod_mod]
    · rename_i heven
      have hx' : x = 2 * (x / 2) := by omega
      conv_rhs => rw [hx']

/-- A certificate of primality: `n - 1` has a prime factor `q` above the square root of `n`. -/
theorem prime_of_large_factor (n q m a : Nat) (hn : n = q * m + 1) (hq : q.Prime) (hlarge : n < q * q)
    (hone : a ^ (q * m) % n = 1) (hgcd : Nat.gcd (a ^ m % n + (n - 1)) n = 1) : n.Prime := by
  have hn1 : 1 < n := by
    by_contra hle
    have hz : q * m = 0 := by omega
    rw [hz, pow_zero] at hone
    have : n = 1 := by omega
    rw [this] at hone
    simp at hone
  by_contra hnp
  have hr : (Nat.minFac n).Prime := Nat.minFac_prime (by omega)
  have hrn : Nat.minFac n ∣ n := Nat.minFac_dvd n
  have hrsq : Nat.minFac n ^ 2 ≤ n := Nat.minFac_sq_le_self (by omega) hnp
  generalize hR : Nat.minFac n = r at hr hrn hrsq
  have := Fact.mk hr
  have hcast : ∀ x : Nat, ((x % n : Nat) : ZMod r) = (x : ZMod r) := by
    intro x
    rw [ZMod.natCast_eq_natCast_iff]
    exact Nat.ModEq.of_dvd hrn (Nat.mod_modEq x n)
  have h1 : (a : ZMod r) ^ (q * m) = 1 := by
    have := hcast (a ^ (q * m))
    rw [hone] at this
    push_cast at this
    exact this.symm
  have hne : (a : ZMod r) ^ m ≠ 1 := by
    intro hm
    have hz : ((a ^ m % n + (n - 1) : Nat) : ZMod r) = 0 := by
      have hn0 : ((n : Nat) : ZMod r) = 0 := (ZMod.natCast_eq_zero_iff _ _).2 hrn
      have hcongr : ((a ^ m % n + (n - 1) : Nat) : ZMod r) + 1 = (a : ZMod r) ^ m + n := by
        have e : a ^ m % n + (n - 1) + 1 = a ^ m % n + n := by omega
        have := congrArg (fun x : Nat => (x : ZMod r)) e
        simp only [Nat.cast_add, hcast, Nat.cast_one, Nat.cast_pow] at this
        simpa [hcast] using this
      rw [hm, hn0, add_zero] at hcongr
      exact add_eq_right.1 hcongr
    have hdvd : r ∣ a ^ m % n + (n - 1) := (ZMod.natCast_eq_zero_iff _ _).1 hz
    have := Nat.dvd_gcd hdvd hrn
    rw [hgcd] at this
    exact hr.one_lt.ne' (Nat.dvd_one.1 this)
  have hord : orderOf (a : ZMod r) ∣ q * m := orderOf_dvd_of_pow_eq_one h1
  have hordm : ¬ orderOf (a : ZMod r) ∣ m := fun h => hne (orderOf_dvd_iff_pow_eq_one.1 h)
  have hqord : q ∣ orderOf (a : ZMod r) := by
    by_contra hnd
    have hco : Nat.Coprime (orderOf (a : ZMod r)) q := ((Nat.Prime.coprime_iff_not_dvd hq).2 hnd).symm
    exact hordm (hco.dvd_of_dvd_mul_left hord)
  have ha0 : (a : ZMod r) ≠ 0 := by
    intro h0
    have hqm : q * m ≠ 0 := by omega
    rw [h0, zero_pow hqm] at h1
    exact zero_ne_one h1
  have hsub : orderOf (a : ZMod r) ∣ r - 1 := ZMod.orderOf_dvd_card_sub_one ha0
  have hle : q ≤ r - 1 := Nat.le_of_dvd (by have := hr.two_le; omega) (hqord.trans hsub)
  have : q * q ≤ r ^ 2 := by
    rw [sq]
    exact Nat.mul_le_mul (by omega) (by omega)
  omega

/-- Evaluating a power modulo `n` by squaring. -/
theorem pow_mod_of_powModBelow {f b x n r : Nat} (hx : x < 2 ^ f) (h : powModBelow f b x n = r) :
    b ^ x % n = r := by
  rw [← powModBelow_eq f b x n hx, h]

/-- The first certificate: every prime factor of `n - 1` is known, and 3 has order `n - 1`. -/
theorem prime_255515944373312847190720520512484175977 :
    Nat.Prime 255515944373312847190720520512484175977 := by
  have hpow : ∀ x < 2 ^ 128,
      ((3 : ZMod 255515944373312847190720520512484175977) ^ x = 1 ↔
        powModBelow 128 3 x 255515944373312847190720520512484175977 = 1) := by
    intro x hx
    rw [powModBelow_eq 128 3 x _ hx]
    have := ZMod.natCast_eq_natCast_iff' (3 ^ x) 1 255515944373312847190720520512484175977
    push_cast at this
    rw [this]
  refine lucas_primality _ 3 ((hpow _ (by norm_num)).2 (by decide +kernel)) ?_
  intro q hq hdvd
  have hfac : 255515944373312847190720520512484175977 - 1 =
      2 ^ 3 * 7 ^ 2 * 11 * 1627 * 2657 * 4423 * 41201 * 96557 * 7240687 * 107590001 := by norm_num
  rw [hfac] at hdvd
  have hmem : q ∈ [2, 7, 11, 1627, 2657, 4423, 41201, 96557, 7240687, 107590001] := by
    simp only [hq.dvd_mul] at hdvd
    have h := fun n (hn : Nat.Prime n) => (Nat.prime_dvd_prime_iff_eq hq hn)
    rcases hdvd with ((((((((hd | hd) | hd) | hd) | hd) | hd) | hd) | hd) | hd) | hd
    · have := (h 2 (by norm_num)).1 (hq.dvd_of_dvd_pow hd)
      simp [this]
    · have := (h 7 (by norm_num)).1 (hq.dvd_of_dvd_pow hd)
      simp [this]
    · have := (h 11 (by norm_num)).1 hd
      simp [this]
    · have := (h 1627 (by norm_num)).1 hd
      simp [this]
    · have := (h 2657 (by norm_num)).1 hd
      simp [this]
    · have := (h 4423 (by norm_num)).1 hd
      simp [this]
    · have := (h 41201 (by norm_num)).1 hd
      simp [this]
    · have := (h 96557 (by norm_num)).1 hd
      simp [this]
    · have := (h 7240687 (by norm_num)).1 hd
      simp [this]
    · have := (h 107590001 (by norm_num)).1 hd
      simp [this]
  have hall : ∀ r ∈ [2, 7, 11, 1627, 2657, 4423, 41201, 96557, 7240687, 107590001],
      (255515944373312847190720520512484175977 - 1) / r < 2 ^ 128 ∧
      powModBelow 128 3 ((255515944373312847190720520512484175977 - 1) / r)
        255515944373312847190720520512484175977 ≠ 1 := by decide +kernel
  obtain ⟨hlt, hne⟩ := hall q hmem
  exact fun hone => hne ((hpow _ hlt).1 hone)

/-- The second certificate, from the first. -/
theorem prime_205115282021455665897114700593932402728804164701536103180137503955397371 :
    Nat.Prime 205115282021455665897114700593932402728804164701536103180137503955397371 := by
  refine prime_of_large_factor _ 255515944373312847190720520512484175977
    802749442992798076634733441528810 2 (by norm_num)
    prime_255515944373312847190720520512484175977 (by norm_num) ?_ ?_
  · exact pow_mod_of_powModBelow (f := 256) (by norm_num) (by decide +kernel)
  · rw [← powModBelow_eq 256 _ _ _ (by norm_num)]
    decide +kernel

/-- P is prime (R3). -/
theorem P_prime : Nat.Prime Config.P := by
  refine prime_of_large_factor _ 205115282021455665897114700593932402728804164701536103180137503955397371
    564522 2 (by decide +kernel)
    prime_205115282021455665897114700593932402728804164701536103180137503955397371 (by decide +kernel) ?_ ?_
  · exact pow_mod_of_powModBelow (f := 256) (by norm_num) (by decide +kernel)
  · rw [← powModBelow_eq 256 _ _ _ (by norm_num)]
    decide +kernel

end Sys2Proof.Safety
end

