-- ==== Sys2Proof/Tests/Slice0.lean ====
section
/-! SUPPORT. Tests: the well-formedness checks, the decoder on words written out bit by bit, the spec's test vectors (one
step each, expected values from spec/95_test_vectors.md), and a witness for the hypotheses of every statement that has
any. -/

namespace Sys2Proof.Tests

open Sys2Proof.Machine Sys2Proof.Safety

/-! ### Well-formedness -/

theorem test_wellFormed_refuses_size : (Access.read 0x04 2).wellFormed = false ∧
    (Access.read 0x04 2).sizeOk = false ∧ (Access.read 0x04 2).alignOk = true := by decide

theorem test_wellFormed_refuses_alignment : (Access.write 0x22 4 0).wellFormed = false ∧
    (Access.write 0x22 4 0).sizeOk = true ∧ (Access.write 0x22 4 0).alignOk = false := by decide

theorem test_wellFormed_takes_words : (Access.read 0x04 4).wellFormed = true ∧
    (Access.write 0x5C 4 1).wellFormed = true ∧ Instr.exp.wellFormed = true := by decide

/-! ### Decoding: R55's fields, bit by bit, with the op numbers of R58 -/

theorem test_decode_add : decode 0b00000000000000000000000000000_000#32 = .ok .add := by decide

theorem test_decode_sub : decode 0b00000000000000000000000000000_001#32 = .ok .sub := by decide

theorem test_decode_mul : decode 0b00000000000000000000000000000_010#32 = .ok .mul := by decide

theorem test_decode_inv : decode 0b00000000000000000000000000000_011#32 = .ok .inv := by decide

theorem test_decode_div : decode 0b00000000000000000000000000000_100#32 = .ok .div := by decide

theorem test_decode_exp : decode 0b00000000000000000000000000000_101#32 = .ok .exp := by decide

theorem test_decode_refuses_reserved_op : decode 0b00000000000000000000000000000_110#32 = .error .reservedOpcode ∧
    decode 0b00000000000000000000000000000_111#32 = .error .reservedOpcode := by decide

theorem test_decode_refuses_reserved_bits : decode 0b00000000000000000000000000001_000#32 = .error .reservedBits ∧
    decode 0b10000000000000000000000000000_101#32 = .error .reservedBits := by decide

theorem test_decode_bytes_low_byte_first : decodeBytes [0x05, 0x00, 0x00, 0x00] = .ok .exp ∧
    decodeBytes [0x00, 0x00, 0x00, 0x05] = .error .reservedBits ∧
    decodeBytes [0x05] = .error .notOneWord := by decide

theorem test_decodeTableWord : decodeTableWord 32 4 = some .div ∧ decodeTableWord 32 6 = none ∧
    decodeTableWord 64 4 = none := by decide

/-! ### The spec's vectors -/

/-- A core after reset whose host has written OPA and OPB. -/
def readyWith (a b : Elem) : State := { State.reset with opa := a, opb := b, opaW := 0xFF, opbW := 0xFF }

/-- A core after reset whose host has written OPA alone. -/
def readyWithA (a : Elem) : State := { State.reset with opa := a, opaW := 0xFF }

/-- What a vector lists: RES, STATUS, ITERCNT, MULCNT, with FAULT. -/
def report (o : Host.Outcome State Fault Refusal) : Option (Elem × Word × Word × Word × Option Fault) :=
  match o with
  | .next t => some (t.res, t.status, t.itercnt, t.mulcnt, t.fault)
  | .fault _ => none
  | .refused _ => none

/-- V2.3: the carry out of bit 255 is kept. -/
theorem test_add_keeps_carry : report (exec .add (readyWith (BitVec.allOnes 256) (BitVec.allOnes 256))) =
    some (0x2000007A0, 0x0A, 0, 0, none) := by decide +kernel

/-- V2.1, the source's example. -/
theorem test_add_source_example :
    report (exec .add (readyWith 0xFFFFFFFFFFFFFFFFFFFFFFFFFFFFFFFFFFFFFFFFFFFFFFFFFFFFFFFEFFFFFC2E 2)) =
    some (1, 0x0A, 0, 0, none) := by decide +kernel

/-- V3.3: a < b wraps through P. -/
theorem test_sub_wraps : report (exec .sub (readyWith 3 5)) =
    some (0xFFFFFFFFFFFFFFFFFFFFFFFFFFFFFFFFFFFFFFFFFFFFFFFFFFFFFFFEFFFFFC2D, 0x0A, 0, 0, none) := by
  decide +kernel

/-- V3.5: a subtrahend above P. -/
theorem test_sub_reduces : report (exec .sub (readyWith 0 (BitVec.allOnes 256))) =
    some (0xFFFFFFFFFFFFFFFFFFFFFFFFFFFFFFFFFFFFFFFFFFFFFFFFFFFFFFFDFFFFF85F, 0x0A, 0, 0, none) := by
  decide +kernel

/-- V4.2: the full 512-bit product. -/
theorem test_mul_needs_high_half : report (exec .mul (readyWith (BitVec.allOnes 256) (BitVec.allOnes 256))) =
    some (0x1000007A0000E8900, 0x0A, 0, 1, none) := by decide +kernel

/-- V4.3. -/
theorem test_mul_two_128 : report (exec .mul
    (readyWith 0x100000000000000000000000000000000 0x100000000000000000000000000000000)) =
    some (0x1000003D1, 0x0A, 0, 1, none) := by decide +kernel

/-- V5.1, the source's example with its counts. -/
theorem test_exp_two_256 : report (exec .exp (readyWith 2 0x100)) =
    some (0x1000003D1, 0x0A, 9, 10, none) := by decide +kernel

/-- V5.17: the maximum count. -/
theorem test_exp_maximum : report (exec .exp (readyWith 3 (BitVec.allOnes 256))) =
    some (0xDB22CBAA65CEA5E7962E9FE404FE04EC5ECC9201FA60BEE06878F739B11F4CF9, 0x0A, 256, 512, none) := by
  decide +kernel

/-- V6.6 with OPB unwritten (V8.7): an operand above P. -/
theorem test_inv_reduces : report (exec .inv (readyWithA (BitVec.allOnes 256))) =
    some (0xBE4316DBA038DAAD273E4BDA627ECF687C8941A534B5BA270B2A4B24B07E6798, 0x0A, 256, 505, none) := by
  decide +kernel

/-- V6.5: P has a zero residue. -/
theorem test_inv_of_P :
    report (exec .inv (readyWithA 0xFFFFFFFFFFFFFFFFFFFFFFFFFFFFFFFFFFFFFFFFFFFFFFFFFFFFFFFEFFFFFC2F)) =
    some (0, 0x16, 0, 0, none) := by decide +kernel

/-- V7.2: 6 / 3. -/
theorem test_div_six_three : report (exec .div (readyWith 6 3)) = some (2, 0x0A, 256, 506, none) := by
  decide +kernel

/-- V7.3: a zero divisor. -/
theorem test_div_by_zero : report (exec .div (readyWith 5 0)) = some (0, 0x16, 0, 0, none) := by decide +kernel

/-- V8.5: an illegal word reads no operand. -/
theorem test_illegal_after_reset : report (step { State.reset with agenda := [.command 6] }) =
    some (0, 0x26, 0, 0, none) := by decide

/-- V8.6: ADD after reset. -/
theorem test_add_after_reset_is_unwritten : report (step { State.reset with agenda := [.access (.write 0 4 0)] }) =
    some (0, 0x00, 0, 0, some .unwrittenOperand) := by decide

/-- V8.8: word 7 of OPB is not written. -/
theorem test_partly_written_operand : report (exec .add { readyWith 1 2 with opbW := 0x7F }) =
    some (0, 0x00, 0, 0, some .unwrittenOperand) := by decide

/-- V8.9: a CMD write while busy. -/
theorem test_command_while_busy : report (hostTurn (.write 0 4 5) (latch (.legal .exp) (readyWith 2 3))) =
    some (0, 0x01, 0, 0, some .commandWhileBusy) := by decide

/-- V8.10 and V8.12 to V8.15, V8.18: the faults of reads and writes. -/
theorem test_access_faults :
    readAnswer 0x60 4 (latch (.legal .exp) (readyWith 2 3)) = .fault .invalidResultRead ∧
    readAnswer 0x00 4 (readyWith 2 3) = .fault .illegalAccess ∧
    report (hostTurn (.write 0x04 4 1) State.reset) = some (0, 0, 0, 0, some .illegalAccess) ∧
    readAnswer 0x22 4 (readyWith 2 3) = .fault .illegalAccess ∧
    readAnswer 0x10 4 (readyWith 2 3) = .fault .illegalAccess ∧
    readAnswer 0x20 4 State.reset = .fault .unwrittenRead := by decide

/-- V8.16: PMOD's words. -/
theorem test_pmod_words : readAnswer 0x80 4 State.reset = .value 0xFFFFFC2F ∧
    readAnswer 0x84 4 State.reset = .value 0xFFFFFFFE ∧ readAnswer 0x9C 4 State.reset = .value 0xFFFFFFFF := by
  decide +kernel

/-- V8.19: with FAULT set there is no step. -/
theorem test_fault_is_quiescent :
    step { State.reset with fault := some .illegalAccess, agenda := [.access (.read 0x04 4)] } =
      .fault .illegalAccess := rfl

/-- V8.20: a command start clears the error report at once. -/
theorem test_start_clears_error :
    (commandWrite 0 { readyWith 1 2 with status := 0x16 }).status = 0x01 := by decide

/-- R65: `fcall INV` writes OPA alone, `fcall ADD` both registers; the mnemonic is a CMD write of its word. -/
theorem test_fcall_expands (a b : Elem) :
    fcall .inv a b 0 = wr256 .opa a ++ [wrCmd 3] ++ [rdStatus] ∧
    fcall .add a b 0 = wr256 .opa a ++ wr256 .opb b ++ [wrCmd 0] ++ [rdStatus] := by
  constructor <;> simp [fcall, mnemonic, wait] <;> decide

/-- R64: two reads into variable 1 with one into variable 0 between them leave the last word of each. -/
theorem test_host_variables : hostVars [1, 0, 1] [7, 8, 9] = [(0, 8), (1, 7)] := by decide

/-- R43 on L3.1's first word: word 0 is the least significant. -/
theorem test_word_order : wordOf 0xFFFFFFFFFFFFFFFFFFFFFFFFFFFFFFFFFFFFFFFFFFFFFFFFFFFFFFFEFFFFFC2E 0 = 0xFFFFFC2E ∧
    wordOf 0xFFFFFFFFFFFFFFFFFFFFFFFFFFFFFFFFFFFFFFFFFFFFFFFFFFFFFFFEFFFFFC2E 1 = 0xFFFFFFFE := by
  decide +kernel

/-! ### The interface for the opcode table: each row runs as the first command after reset -/

theorem test_rows_run_first :
    step (State.reset.withFetchWord 32 0) = exec .add { State.reset with opaW := 0xFF, opbW := 0xFF } ∧
    step (State.reset.withFetchWord 32 3) = exec .inv { State.reset with opaW := 0xFF } :=
  ⟨rfl, rfl⟩

/-! ### Witnesses: states and operands that meet the statements' hypotheses together -/

/-- STATUS after reset has BUSY = 0. -/
theorem reset_status_idle : (0 : Word).getLsbD 0 = false := by decide

/-- The written states are ready for every command: ADD, SUB, MUL, EXP, INV, DIV and an illegal word. -/
theorem witness_ready (op : Op) (a b : Elem) : Ready op (readyWith a b) := by
  refine ⟨rfl, reset_status_idle, ?_, ?_⟩ <;>
  · intro _ k
    change marked 0xFF k = true
    revert k
    decide

/-- INV is ready with OPB unwritten. -/
theorem witness_ready_inv (a : Elem) : Ready (.legal .inv) (readyWithA a) := by
  refine ⟨rfl, reset_status_idle, ?_, ?_⟩
  · intro _ k
    change marked 0xFF k = true
    revert k
    decide
  · intro h
    exact absurd h (by decide)

/-- The operands of the commands' statements: a non-zero residue, and the two zero residues. -/
theorem witness_residues : (1 : Elem).toNat % Config.P ≠ 0 ∧ (0 : Elem).toNat % Config.P = 0 ∧
    (BitVec.ofNat 256 Config.P).toNat % Config.P = 0 := by decide

/-- A zero residue with an exponent that is not 0, and step numbers at both ends (ExpGivesThePowerModP,
InvGivesTheFermatInverse, DivGivesTheFieldQuotient). -/
theorem witness_exponent_cases : (BitVec.ofNat 256 Config.P).toNat % Config.P = 0 ∧ (1 : Elem) ≠ 0 ∧
    (1 ≤ 1 ∧ 1 ≤ bitlen 0 + 1) ∧ (1 ≤ 257 ∧ 257 ≤ bitlen (BitVec.allOnes 256) + 1) := by decide +kernel

/-- Exponents whose sum is an exponent, at the boundary (ExponentLawsHold). -/
theorem witness_exponent_sum : (BitVec.allOnes 256).toNat + (0 : Elem).toNat < 2 ^ 256 := by decide

/-- An illegal word and an idle core (IllegalWordsStartACommandThatFails, IllegalCommandIsReported,
StepRunsTheDecodedCommand). -/
theorem witness_illegal_word : (∀ i, decode 6 ≠ .ok i) ∧ (∀ i, decode 8 ≠ .ok i) ∧ State.reset.busy = false ∧
    State.reset.fault = none ∧ { State.reset with agenda := [.command 6] }.agenda = .command 6 :: [] := by
  refine ⟨?_, ?_, rfl, rfl, rfl⟩ <;>
  · intro i
    cases i <;> decide

/-- A legal word next (StepRunsTheDecodedCommand). -/
theorem witness_command_next : decode 5 = .ok .exp ∧
    { State.reset with agenda := [.command 5] }.agenda = .command 5 :: [] := ⟨by decide, rfl⟩

/-- Each kind of next entry, and none (StepTakesTheNextTurn, ResetAbortsTheCommandInFlight). -/
theorem witness_next_entries : State.reset.fault = none ∧ State.reset.agenda = [] ∧
    { State.reset with agenda := [rdStatus] }.agenda = .access (.read 0x04 4) :: [] ∧
    { State.reset with agenda := [.unit] }.agenda = .unit :: [] ∧
    { latch (.legal .exp) (readyWith 2 3) with agenda := [.reset] }.agenda = .reset :: [] :=
  ⟨rfl, rfl, rfl, rfl, rfl⟩

/-- Both states of OnlyTheseAreReadableAfterReset. -/
theorem witness_after_reset : State.reset = State.reset ∧ hardReset State.reset = hardReset State.reset :=
  ⟨rfl, rfl⟩

/-- A command in flight whose start step is pending. -/
def started : State := latch (.legal .exp) (readyWith 2 3)

/-- EXP in its loop with one exponent bit left to take. -/
def looping : State := expInit 2 1 (latch (.legal .exp) (readyWith 2 1))

/-- DIV by 1 at its loop's exit. -/
def exiting : State :=
  { latch (.legal .div) (readyWith 6 1) with
    sq := 1, racc := 1, e := 0, itercnt := 256, mulcnt := 505, ph := .expLoop }

/-- The invariant meets an idle state, each busy phase, and a finished command's state. -/
theorem witness_invariant_reset : MachineInv State.reset ∧ step State.reset = .next State.reset ∧
    State.reset.busy = false ∧ State.reset.done = false := ⟨.inl ⟨rfl, rfl, rfl⟩, rfl, rfl, rfl⟩

theorem witness_invariant_started : MachineInv started ∧ started.fault = none ∧ started.agenda = [] ∧
    step started = .next (unitStep started) := ⟨⟨rfl, rfl, rfl⟩, rfl, rfl, rfl⟩

theorem witness_invariant_looping : MachineInv looping ∧ looping.ph = .expLoop ∧ looping.e ≠ 0 ∧
    looping.agenda ≠ .reset :: [] ∧ looping.fault = none := by
  refine ⟨⟨rfl, 2, 1, rfl, ?_⟩, rfl, by decide, by decide, rfl⟩
  refine ⟨by decide +kernel, by decide +kernel, by decide +kernel, by decide +kernel, by decide +kernel,
    by decide +kernel⟩

theorem witness_engine_exiting : EngineInv 1 fermatExponent exiting := by
  have hpow : ∀ n : Nat, (exiting.racc.toNat * exiting.sq.toNat ^ exiting.e.toNat) % Config.P =
      ((1 : Elem).toNat % Config.P) ^ n % Config.P := by
    intro n
    have h1 : exiting.racc.toNat * exiting.sq.toNat ^ exiting.e.toNat = 1 := by decide +kernel
    have h2 : (1 : Elem).toNat % Config.P = 1 := by decide +kernel
    rw [h1, h2, one_pow]
  unfold EngineInv
  exact ⟨by decide +kernel, by decide +kernel, hpow _, by decide +kernel, by decide +kernel, by decide +kernel⟩

theorem witness_invariant_exiting : MachineInv exiting := by
  have hrun : engineRun exiting = some (1, fermatExponent) := by
    have h : exiting.lb.toNat % Config.P ≠ 0 := by decide +kernel
    simp only [engineRun, show exiting.lop = .legal .div from rfl, if_neg h]
    rfl
  exact ⟨rfl, 1, fermatExponent, hrun, witness_engine_exiting⟩

theorem witness_exiting_step : exiting.ph = .expLoop ∧ exiting.e = 0 ∧ exiting.lop = .legal .div ∧
    exiting.ph ≠ .divFinal ∧ (unitStep exiting).ph = .divFinal := by decide +kernel

/-- EXP and INV at the loop's exit, and DIV's final step (LoopExitAndFinalProduct). -/
theorem witness_exits : { exiting with lop := .legal .exp }.lop = .legal .exp ∧
    { exiting with lop := .legal .inv }.lop = .legal .inv ∧ exiting.ph = .expLoop ∧ exiting.e = 0 ∧
    { exiting with ph := .divFinal }.ph = .divFinal := ⟨rfl, rfl, rfl, rfl, rfl⟩

/-- A state that reports each error (DivisionByZeroIsReported, IllegalCommandIsReported). -/
theorem witness_error_reports : { State.reset with status := 0x16 }.status = 0x16 ∧
    { State.reset with status := 0x26 }.status = 0x26 := ⟨rfl, rfl⟩

/-- A command that completes, one that is turned away, one that ends in an error (CommandsLeaveTheRestUnchanged). -/
theorem witness_outcomes : exec .add (readyWith 1 2) = .next (addStart (latch (.legal .add) (readyWith 1 2))) ∧
    exec .add State.reset = .next { State.reset with fault := some .unwrittenOperand } ∧
    exec .inv (readyWithA 0) = .next (raise .divisionByZero (latch (.legal .inv) (readyWithA 0))) :=
  ⟨rfl, rfl, rfl⟩

/-- Steps of OnlyTheseStepsWriteOperandsAndResult: an idle turn and a turn that ends a command. -/
theorem witness_result_step : (∀ rest, started.agenda ≠ .reset :: rest) ∧
    (∀ off size v rest, started.agenda ≠ .access (.write off size v) :: rest) ∧
    (unitStep (latch (.legal .add) (readyWith 1 2))).status = 0x0A := by
  refine ⟨by simp [started, readyWith, State.reset], by simp [started, readyWith, State.reset], by decide⟩

/-- Fresh counters and the ends of the range of iterations (EngineLoopInvariant, EngineCountsItsOperations). -/
theorem witness_engine_range : State.reset.itercnt = 0 ∧ State.reset.mulcnt = 0 ∧ 0 ≤ bitlen 5 ∧ 3 ≤ bitlen 5 ∧
    2 < bitlen 5 := by decide +kernel

/-- The first and the last unit step before a completion (CollapseAgreesWithUnitSteps, CommandsTakeTheseUnitSteps). -/
theorem witness_steps_in_flight : Ready (.legal .exp) (readyWith 2 3) ∧ 0 < unitStepCount (.legal .exp) 2 3 ∧
    3 < unitStepCount (.legal .exp) 2 3 ∧ Ready (Op.ofWord 6) State.reset := by
  refine ⟨witness_ready _ _ _, by decide +kernel, by decide +kernel, rfl, rfl, ?_, ?_⟩ <;>
  · intro h
    exact absurd h (by decide)

/-- A host that polls, writes an operand word and lets the Unit have its turn (EveryInterleavingGivesTheSameReport). -/
theorem witness_interleaving : Ready (.legal .add) (readyWith 1 2) ∧
    exec .add (readyWith 1 2) = .next (addStart (latch (.legal .add) (readyWith 1 2))) ∧
    (∀ ev ∈ [rdStatus, wr .opa 0 7, .unit, rdMulcnt], harmless ev = true) ∧
    unitStepCount (.legal .add) 1 2 ≤ unitTurns [rdStatus, wr .opa 0 7, .unit, rdMulcnt] :=
  ⟨witness_ready _ _ _, rfl, by decide, by decide⟩

/-- Offsets at the ends of each range of the writes' and reads' statements (HostWritesTakeEffect, HostReadsAnswer,
IllegalAccessesFault). -/
theorem witness_offsets : State.reset.fault = none ∧ (0x21 : Offset).toNat % 4 ≠ 0 ∧
    ((0x04 : Offset).toNat % 4 = 0 ∧ (0x04 : Offset) ≠ 0x00 ∧ (0x04 : Offset).toNat < 0x20) ∧
    ((0x1C : Offset).toNat % 4 = 0 ∧ (0x1C : Offset).toNat < 0x20 ∧ 0x10 ≤ (0x1C : Offset).toNat) ∧
    ((0x60 : Offset).toNat % 4 = 0 ∧ 0x60 ≤ (0x60 : Offset).toNat ∧ (0x60 : Offset).toNat < 0xA0) ∧
    ((0xFC : Offset).toNat % 4 = 0 ∧ 0xA0 ≤ (0xFC : Offset).toNat) ∧
    (0x0C : Offset).toNat < 0x10 ∧ (2 : Nat) ≠ 4 := by decide

/-- A read that answers, one that draws, one that faults (HostReadsAnswer, ReadsAndRepeatedWritesHaveNoSideEffect,
CounterReadsWhileBusyAreDraws). -/
theorem witness_answers : readAnswer 0x04 4 State.reset = .value 0 ∧ readAnswer 0x08 4 started = .draw ∧
    readAnswer 0x60 4 State.reset = .fault .invalidResultRead ∧ readAnswer 0x04 4 State.reset ≠ .draw ∧
    started.busy = true ∧ started.fault = none ∧ State.reset.busy = false := by decide

/-- Each outcome of a CMD write (CommandWriteChecksInOrder). -/
theorem witness_command_write_outcomes :
    { State.reset with fault := some .illegalAccess }.fault = some .illegalAccess ∧
    (started.fault = none ∧ started.busy = true) ∧ decode 6 = .error .reservedOpcode ∧ decode 4 = .ok .div ∧
    (∃ k, marked State.reset.opaW k = false) ∧ (Instr.div ≠ .inv ∧ ∃ k, marked (readyWithA 1).opbW k = false) ∧
    ¬ (∃ k, marked (readyWith 1 2).opaW k = false) ∧ ¬ (∃ k, marked (readyWith 1 2).opbW k = false) := by
  decide

/-- A list of words in another order that has each of them (EightWordsMakeARegisterInAnyOrder). -/
theorem witness_word_order : ∀ k : Fin 8, k ∈ [7, 0, 3, 3, 1, 2, 6, 5, 4] := by decide

/-- Written registers and a valid result (PlatformBytesAreLittleEndian). -/
theorem witness_platform_bytes : (∀ k, marked (readyWith 1 2).opaW k = true) ∧
    (∀ k, marked (readyWith 1 2).opbW k = true) ∧ { State.reset with status := 0x0A }.rvalid = true := by decide

/-- A state with FAULT set whose next entry is a reset (FaultIsStickyAndQuiescent). -/
theorem witness_fault_and_reset :
    { State.reset with fault := some .unwrittenRead, agenda := [.reset] }.fault = some .unwrittenRead ∧
    step { State.reset with fault := some .unwrittenRead, agenda := [.reset] } =
      .next (hardReset { State.reset with fault := some .unwrittenRead }) := ⟨rfl, rfl⟩

/-- Idle states with each kind of entry (ReportStandsUntilTheNextCommand). -/
theorem witness_report_stands : State.reset.ph = .idle ∧ regAt 0x20 ≠ .cmd ∧
    step { State.reset with agenda := [.unit] } = .next State.reset ∧
    step { State.reset with agenda := [rdStatus] } = .next { State.reset with replies := [0] } ∧
    step { State.reset with agenda := [wr .opa 0 0] } = .next (writeOpa 0 0 State.reset) := by
  refine ⟨rfl, by decide, rfl, rfl, rfl⟩

/-- A state without a model fault and with nothing to come, and two host variables (ObservationDoesNotTellThePolls). -/
theorem witness_polls : State.reset.fault = none ∧ State.reset.agenda = [] ∧ (1 : Var) ≠ 0 ∧
    hostVars [0, 0] [2, 1] = hostVars [0] [2] := ⟨rfl, rfl, by decide, by decide⟩

/-- States that differ in an unwritten word and in an invalid RES alone (ObservationShowsOnlyWhatIsDefined). -/
theorem witness_same_observation : State.reset.rvalid = false ∧ ¬ Written .opa 0 State.reset ∧
    Written .opa 3 (readyWith 1 2) ∧ State.reset.fault = none ∧
    { State.reset with res := 5, opa := 7 } ≠ State.reset := by
  refine ⟨by decide, ?_, ?_, rfl, by decide⟩
  · change ¬ marked 0 0 = true
    decide
  · change marked 0xFF 3 = true
    decide

end Sys2Proof.Tests
end

section
/-! PROOF. The window's reads as host turns (R28, R42) and PMOD (R17), for the statements about the state. -/

namespace Sys2Proof.Machine

/-! ### A read of the window, as a turn of the host -/

theorem hostTurn_read_of_value {off : Offset} {size : Nat} {v : Word} {s : State} (hf : s.fault = none)
    (h : readAnswer off size s = .value v) :
    hostTurn (.read off size) s = .next { s with replies := v :: s.replies } := by
  rw [hostTurn_of_none hf, access, memRead, h]

theorem hostTurn_read_of_draw {off : Offset} {size : Nat} {s : State} (hf : s.fault = none)
    (h : readAnswer off size s = .draw) :
    hostTurn (.read off size) s =
      .next { s with replies := Config.draw s.draws :: s.replies, draws := s.draws + 1 } := by
  rw [hostTurn_of_none hf, access, memRead, h]

theorem readAnswer_itercnt_of_busy {s : State} (h : s.busy = true) : readAnswer 0x08 4 s = .draw := by
  rw [readAnswer_itercnt, if_pos h]

theorem readAnswer_mulcnt_of_busy {s : State} (h : s.busy = true) : readAnswer 0x0C 4 s = .draw := by
  rw [readAnswer_mulcnt, if_pos h]

theorem readAnswer_itercnt_of_not_busy {s : State} (h : s.busy = false) :
    readAnswer 0x08 4 s = .value s.itercnt := by
  rw [readAnswer_itercnt, h, if_neg Bool.false_ne_true]

theorem readAnswer_mulcnt_of_not_busy {s : State} (h : s.busy = false) :
    readAnswer 0x0C 4 s = .value s.mulcnt := by
  rw [readAnswer_mulcnt, h, if_neg Bool.false_ne_true]

/-! ### PMOD -/

theorem wordOf_pmod_zero : wordOf pmod 0 = 0xFFFFFC2F := by decide

theorem wordOf_pmod_one : wordOf pmod 1 = 0xFFFFFFFE := by decide

theorem wordOf_pmod_of_two_le : ∀ k : Fin 8, 2 ≤ k.val → wordOf pmod k = 0xFFFFFFFF := by decide

/-- PMOD has no storage: a write to one of its words is illegal (R17, R46). -/
theorem memWrite_pmod (k : Fin 8) (v : Word) (s : State) :
    memWrite (BitVec.ofNat 8 (0x80 + 4 * k)) 4 v s = raiseFault .illegalAccess s := by
  rw [memWrite_of_aligned (wordOffset_mod _ (by decide) k), regAt_pmod]

end Sys2Proof.Machine
end

section

open Sys2Proof Sys2Proof.Machine

/-- Settles O31: a read's answer rests on the registers that the window shows, which the two states share, and the
ports and the observation name no hidden register. -/
theorem hiddenStateIsNotReadable : Obligations.HiddenStateIsNotReadable := by
  intro s p op a b c d e off size names
  exact ⟨readAnswer_congr off size rfl rfl rfl rfl rfl rfl rfl rfl, rfl, rfl, rfl⟩

/-- Settles O36: what the two counters answer, by BUSY, and what the host's turn makes of that answer. -/
theorem counterReadsWhileBusyAreDraws : Obligations.CounterReadsWhileBusyAreDraws := by
  intro s hf
  constructor
  · intro hb
    exact ⟨hostTurn_read_of_draw hf (readAnswer_itercnt_of_busy hb),
      hostTurn_read_of_draw hf (readAnswer_mulcnt_of_busy hb)⟩
  · intro hb
    exact ⟨hostTurn_read_of_value hf (readAnswer_itercnt_of_not_busy hb),
      hostTurn_read_of_value hf (readAnswer_mulcnt_of_not_busy hb)⟩

/-- Settles O41: PMOD is the constant P, so its words are known, no write reaches it and no step changes what it
reads. -/
theorem modulusIsReadable : Obligations.ModulusIsReadable := by
  intro s hf
  refine ⟨?word0, ?word1, ?highWords, ?write, ?step⟩
  case word0 => exact (readAnswer_pmod 0 s).trans (congrArg _ wordOf_pmod_zero)
  case word1 => exact (readAnswer_pmod 1 s).trans (congrArg _ wordOf_pmod_one)
  case highWords =>
    intro k hk
    rw [readAnswer_pmod, wordOf_pmod_of_two_le k hk]
  case write =>
    intro k v
    rw [hostTurn_of_none hf, access, memWrite_pmod, raiseFault_of_none hf]
  case step =>
    intro t _ k
    rw [readAnswer_pmod, readAnswer_pmod]

end

section
/-! PROOF. The window's accesses as turns of the host (R41, R42, R46), a read's frame (R47), and a register written word
by word (R43), for the statements about the memory. -/

namespace Sys2Proof.Machine

open Sys2Proof.Safety

/-! ### A turn of the host -/

/-- A set FAULT allows no Host step (R101). -/
theorem hostTurn_of_fault (a : Access) {s : State} {r : Fault} (h : s.fault = some r) : hostTurn a s = .fault r := by
  rw [hostTurn, h]

theorem memRead_of_fault {off : Offset} {size : Nat} {r : Fault} {s : State} (h : readAnswer off size s = .fault r) :
    memRead off size s = raiseFault r s := by
  rw [memRead, h]

theorem hostTurn_read_of_fault {off : Offset} {size : Nat} {r : Fault} {s : State} (hf : s.fault = none)
    (h : readAnswer off size s = .fault r) :
    hostTurn (.read off size) s = .next { s with fault := some r } := by
  rw [hostTurn_of_none hf, access, memRead_of_fault h, raiseFault_of_none hf]

theorem hostTurn_write_of_eq {off : Offset} {size : Nat} {v : Word} {s t : State} (hf : s.fault = none)
    (h : memWrite off size v s = t) : hostTurn (.write off size v) s = .next t := by
  rw [hostTurn_of_none hf, access, h]

theorem hostTurn_write_of_illegal {off : Offset} {size : Nat} {v : Word} {s : State} (hf : s.fault = none)
    (h : memWrite off size v s = raiseFault .illegalAccess s) :
    hostTurn (.write off size v) s = .next { s with fault := some .illegalAccess } :=
  hostTurn_write_of_eq hf (h.trans (raiseFault_of_none hf))

/-! ### Reads -/

theorem readAnswer_cmd (s : State) : readAnswer 0x00 4 s = .fault .illegalAccess := rfl

/-- A read of a reserved offset is illegal, whatever its form (R46). -/
theorem readAnswer_of_reserved {off : Offset} (size : Nat)
    (h : (0x10 ≤ off.toNat ∧ off.toNat < 0x20) ∨ 0xA0 ≤ off.toNat) (s : State) :
    readAnswer off size s = .fault .illegalAccess := by
  rw [readAnswer, regAt_reserved h, readReg, ite_self]

/-- A read changes nothing of the core but FAULT (R42). -/
theorem memRead_frame (off : Offset) (size : Nat) (s : State) :
    { memRead off size s with fault := s.fault, replies := s.replies, draws := s.draws } = s := by
  obtain ⟨v, _, h⟩ | ⟨_, _, h⟩ | ⟨r, _, h⟩ := memRead_cases off size s
  · rw [h]
  · rw [h]
  · rw [h]
    rfl

/-- A read that draws nothing uses no free value (R28). -/
theorem memRead_draws {off : Offset} {size : Nat} {s : State} (hd : readAnswer off size s ≠ .draw) :
    (memRead off size s).draws = s.draws := by
  obtain ⟨v, _, h⟩ | ⟨h, _, _⟩ | ⟨r, _, h⟩ := memRead_cases off size s
  · rw [h]
  · exact absurd h hd
  · rw [h, raiseFault_draws]

/-- A read leaves the answer of every read as it was (R47). -/
theorem readAnswer_memRead (off off' : Offset) (size size' : Nat) (s : State) :
    readAnswer off' size' (memRead off size s) = readAnswer off' size' s := by
  calc readAnswer off' size' (memRead off size s)
      = readAnswer off' size'
          { memRead off size s with fault := s.fault, replies := s.replies, draws := s.draws } :=
        readAnswer_congr off' size' rfl rfl rfl rfl rfl rfl rfl rfl
    _ = readAnswer off' size' s := by rw [memRead_frame]

/-! ### CMD writes -/

theorem commandWrite_of_ready {v : Word} {s : State} (h : Ready (Op.ofWord v) s) :
    commandWrite v s = latch (Op.ofWord v) s :=
  startCommand_of_ready h

/-- A CMD write while a command is in flight starts nothing (R59). -/
theorem commandWrite_of_busy (v : Word) {s : State} (h : s.busy = true) :
    commandWrite v s = raiseFault .commandWhileBusy s := by
  rw [commandWrite, startCommand, startFault_of_busy _ h]

/-! ### Writing one word -/

theorem wordOf_setWordOf (x : Elem) (k j : Fin 8) (v : Word) :
    wordOf (setWordOf x k v) j = if j = k then v else wordOf x j := by
  split_ifs with h
  · rw [h, wordOf_setWordOf_same]
  · exact wordOf_setWordOf_other x v h

theorem marked_setMark (m : BitVec 8) (k j : Fin 8) :
    marked (setMark m k) j = if j = k then true else marked m j := by
  split_ifs with h
  · rw [h, marked_setMark_same]
  · exact marked_setMark_other m h

/-- Writing a word again changes nothing more (R47). -/
@[simp] theorem setWordOf_setWordOf (x : Elem) (k : Fin 8) (v : Word) :
    setWordOf (setWordOf x k v) k v = setWordOf x k v := by
  refine elem_ext_words fun j => ?_
  rw [wordOf_setWordOf]
  split_ifs with h
  · rw [h, wordOf_setWordOf_same]
  · rfl

@[simp] theorem setMark_setMark (m : BitVec 8) (k : Fin 8) : setMark (setMark m k) k = setMark m k := by
  rw [setMark, setMark, BitVec.or_assoc, BitVec.or_self]

theorem writeOpa_writeOpa (k : Fin 8) (v : Word) (s : State) :
    writeOpa k v (writeOpa k v s) = writeOpa k v s := by
  simp [writeOpa]

theorem writeOpb_writeOpb (k : Fin 8) (v : Word) (s : State) :
    writeOpb k v (writeOpb k v s) = writeOpb k v s := by
  simp [writeOpb]

/-! ### Writing words in any order -/

/-- The register `y` after the words `ks` of `x` are written into it, in that order. -/
def setWords (x : Elem) (ks : List (Fin 8)) (y : Elem) : Elem :=
  ks.foldl (fun z k => setWordOf z k (wordOf x k)) y

/-- The marks `m` after those of the words `ks` are set, in that order. -/
def setMarks (ks : List (Fin 8)) (m : BitVec 8) : BitVec 8 := ks.foldl setMark m

/-- Host writes of words of OPA make its value and its marks, and change nothing else (R41). -/
theorem foldl_writeOpa (x : Elem) (ks : List (Fin 8)) (s : State) :
    ks.foldl (fun t k => writeOpa k (wordOf x k) t) s =
      { s with opa := setWords x ks s.opa, opaW := setMarks ks s.opaW } := by
  induction ks generalizing s with
  | nil => rfl
  | cons k ks ih => exact ih (writeOpa k (wordOf x k) s)

/-- Host writes of words of OPB make its value and its marks, and change nothing else (R41). -/
theorem foldl_writeOpb (x : Elem) (ks : List (Fin 8)) (s : State) :
    ks.foldl (fun t k => writeOpb k (wordOf x k) t) s =
      { s with opb := setWords x ks s.opb, opbW := setMarks ks s.opbW } := by
  induction ks generalizing s with
  | nil => rfl
  | cons k ks ih => exact ih (writeOpb k (wordOf x k) s)

/-- The words written hold those of `x`, the others what they held: the order does not matter (R43). -/
theorem wordOf_setWords (x : Elem) (ks : List (Fin 8)) (y : Elem) (j : Fin 8) :
    wordOf (setWords x ks y) j = if j ∈ ks then wordOf x j else wordOf y j := by
  induction ks generalizing y with
  | nil => rfl
  | cons k ks ih =>
    refine (ih (setWordOf y k (wordOf x k))).trans ?_
    rw [wordOf_setWordOf]
    by_cases hjk : j = k
    · simp [hjk]
    · simp [hjk]

theorem marked_setMarks (ks : List (Fin 8)) (m : BitVec 8) (j : Fin 8) :
    marked (setMarks ks m) j = if j ∈ ks then true else marked m j := by
  induction ks generalizing m with
  | nil => rfl
  | cons k ks ih =>
    refine (ih (setMark m k)).trans ?_
    rw [marked_setMark]
    by_cases hjk : j = k
    · simp [hjk]
    · simp [hjk]

/-- Once every word is written the register is `x`, whatever it held before (R43). -/
theorem setWords_of_forall_mem (x : Elem) {ks : List (Fin 8)} (h : ∀ k, k ∈ ks) (y : Elem) :
    setWords x ks y = x :=
  elem_ext_words fun k => by rw [wordOf_setWords, if_pos (h k)]

theorem marked_setMarks_of_mem {ks : List (Fin 8)} {k : Fin 8} (h : k ∈ ks) (m : BitVec 8) :
    marked (setMarks ks m) k = true := by
  rw [marked_setMarks, if_pos h]

/-- Bit `i` of word `k` is bit `32k + i` of the register (R43). -/
theorem wordOf_getLsbD (x : Elem) (k : Fin 8) {i : Nat} (hi : i < 32) :
    (wordOf x k).getLsbD i = x.getLsbD (32 * k + i) := by
  rw [wordOf, BitVec.getLsbD_extractLsb', decide_eq_true hi, Bool.true_and]

end Sys2Proof.Machine
end

section

open Sys2Proof Sys2Proof.Machine

/-- Settles O32: each offset's write is the host's turn of what `memWrite` does there. -/
theorem hostWritesTakeEffect : Obligations.HostWritesTakeEffect := by
  refine ⟨fun a s r => hostTurn_of_fault a, fun s v hf => ⟨?misaligned, ?cmd, ?operands, ?others⟩⟩
  case misaligned =>
    intro off h
    exact hostTurn_write_of_illegal hf (memWrite_of_malformed (.inr h) v s)
  case cmd => exact hostTurn_write_of_eq hf (memWrite_cmd v s)
  case operands =>
    intro k
    exact ⟨⟨writeOpa k v s, hostTurn_write_of_eq hf (memWrite_opa k v s), rfl,
        fun j => wordOf_setWordOf s.opa k j v, fun j => marked_setMark s.opaW k j⟩,
      ⟨writeOpb k v s, hostTurn_write_of_eq hf (memWrite_opb k v s), rfl,
        fun j => wordOf_setWordOf s.opb k j v, fun j => marked_setMark s.opbW k j⟩⟩
  case others =>
    intro off _ hne hr
    exact hostTurn_write_of_illegal hf (memWrite_of_readOnly hne hr v s)

/-- Settles O33: what the host's turn makes of each kind of answer, and the answer at each offset. -/
theorem hostReadsAnswer : Obligations.HostReadsAnswer := by
  refine ⟨fun a s r => hostTurn_of_fault a, ?turn, fun s => ⟨?misaligned, readAnswer_status s, readAnswer_itercnt s,
    readAnswer_mulcnt s, ?words, ?illegal⟩⟩
  case turn =>
    intro off size s hf
    exact ⟨fun v => hostTurn_read_of_value hf, hostTurn_read_of_draw hf, fun r => hostTurn_read_of_fault hf⟩
  case misaligned =>
    intro off h
    exact readAnswer_of_malformed (.inr h) s
  case words =>
    intro k
    exact ⟨readAnswer_opa k s, readAnswer_opb k s, readAnswer_res k s, readAnswer_pmod k s⟩
  case illegal =>
    rintro off _ (rfl | h)
    · exact readAnswer_cmd s
    · exact readAnswer_of_reserved 4 h s

/-- Settles O34: each illegal access is a read that answers IllegalAccess or a write that raises it. -/
theorem illegalAccessesFault : Obligations.IllegalAccessesFault := by
  intro s off size v hf
  have write_readOnly (hne : off ≠ 0x00) (hr : off.toNat < 0x20 ∨ 0x60 ≤ off.toNat) :
      hostTurn (.write off 4 v) s = .next { s with fault := some .illegalAccess } :=
    hostTurn_write_of_illegal hf (memWrite_of_readOnly hne hr v s)
  have ne_cmd (h : 0x04 ≤ off.toNat) : off ≠ 0x00 := by
    rintro rfl
    exact absurd h (by decide)
  refine ⟨?readCmd, ?writeStatus, ?writeResult, ?reserved, ?malformed⟩
  case readCmd =>
    rintro rfl
    exact hostTurn_read_of_fault hf (readAnswer_cmd s)
  case writeStatus => exact fun hlo hhi => write_readOnly (ne_cmd hlo) (by omega)
  case writeResult => exact fun hlo _ => write_readOnly (ne_cmd (by omega)) (.inr hlo)
  case reserved =>
    intro h
    exact ⟨hostTurn_read_of_fault hf (readAnswer_of_reserved 4 h s), write_readOnly (ne_cmd (by omega)) (by omega)⟩
  case malformed =>
    intro h
    exact ⟨hostTurn_read_of_fault hf (readAnswer_of_malformed h s),
      hostTurn_write_of_illegal hf (memWrite_of_malformed h v s)⟩

/-- Settles O37: a CMD write latches and a second one finds the core busy; an operand write is idempotent; the frame of
a read. -/
theorem readsAndRepeatedWritesHaveNoSideEffect : Obligations.ReadsAndRepeatedWritesHaveNoSideEffect := by
  refine ⟨?cmd, ?operand, fun off size s => ⟨memRead_frame off size s, memRead_draws⟩, readAnswer_memRead⟩
  case cmd =>
    intro v s hr
    have hf : (latch (Op.ofWord v) s).fault = none := hr.1
    rw [commandWrite_of_ready hr, commandWrite_of_busy v (latch_busy _ s)]
    exact ⟨latch_busy _ s, latch_ph _ s, raiseFault_of_none hf⟩
  case operand =>
    intro k v s
    exact ⟨wordOf_setWordOf_same s.opa k v, marked_setMark_same s.opaW k, wordOf_setWordOf_same s.opb k v,
      marked_setMark_same s.opbW k, writeOpa_writeOpa k v s, writeOpb_writeOpb k v s⟩

/-- Settles O38: a register is known from its words, and every word and mark that is written stays so under the writes
of the others. -/
theorem eightWordsMakeARegisterInAnyOrder : Obligations.EightWordsMakeARegisterInAnyOrder := by
  refine ⟨fun x k i => wordOf_getLsbD x k, fun k => ⟨regAt_opa k, regAt_opb k, regAt_res k, regAt_pmod k⟩,
    ?anyOrder, ?latched⟩
  case anyOrder =>
    intro x s ks hks
    rw [foldl_writeOpa, foldl_writeOpb]
    exact ⟨setWords_of_forall_mem x hks s.opa, fun k => marked_setMarks_of_mem (hks k) s.opaW,
      setWords_of_forall_mem x hks s.opb, fun k => marked_setMarks_of_mem (hks k) s.opbW⟩
  case latched =>
    intro v s hr
    rw [commandWrite_of_ready hr, latch_la, latch_lb]
    exact ⟨fun hA => if_pos hA, fun hB => if_pos hB⟩

end

section
/-! PROOF. The decoder by the fields of a word (R55, R58, R61), and what an illegal word starts (R59, R89), for the
statements about the encoding. -/

namespace Sys2Proof

/-! ### The two fields of a command word -/

/-- RSVD and OP are all the bits of a word (R55). -/
theorem rsvdField_append_opField (v : Word) : rsvdField v ++ opField v = v :=
  (BitVec.extractLsb'_append_extractLsb'_eq_extractLsb' rfl).trans BitVec.extractLsb'_eq_self

/-- A word is known from RSVD and OP (R55). -/
theorem word_ext_fields {v w : Word} (hr : rsvdField v = rsvdField w) (ho : opField v = opField w) : v = w := by
  rw [← rsvdField_append_opField v, hr, ho, rsvdField_append_opField w]

@[simp] theorem rsvdField_encode (i : Instr) : rsvdField (encode i) = 0 := by
  cases i <;> decide

@[simp] theorem opField_encode (i : Instr) : opField (encode i) = opcode i := by
  cases i <;> decide

/-! ### The decoder -/

theorem decodeOp_eq_ok_iff (op : BitVec 3) (i : Instr) : decodeOp op = .ok i ↔ op = opcode i := by
  cases i <;> decide +revert

/-- The decoder reads a command exactly from RSVD zero and the command's OP (R58, R61). -/
theorem decode_eq_ok_iff_fields (v : Word) (i : Instr) :
    decode v = .ok i ↔ rsvdField v = 0 ∧ opField v = opcode i := by
  unfold decode
  split_ifs with hr
  · exact iff_of_false nofun fun ⟨h, _⟩ => hr h
  · rw [decodeOp_eq_ok_iff, and_iff_right (not_not.mp hr)]

/-- The decoder reads a command from its own word alone (R58). -/
theorem decode_eq_ok_iff (v : Word) (i : Instr) : decode v = .ok i ↔ v = encode i := by
  rw [decode_eq_ok_iff_fields]
  constructor
  · rintro ⟨hr, ho⟩
    exact word_ext_fields (by rw [hr, rsvdField_encode]) (by rw [ho, opField_encode])
  · rintro rfl
    exact ⟨rsvdField_encode i, opField_encode i⟩

theorem decode_encode (i : Instr) : decode (encode i) = .ok i :=
  (decode_eq_ok_iff _ i).2 rfl

/-! ### The commands in the order of their OP values -/

/-- The rows of the opcode table (R58). -/
def legalCommands : List Instr := [.add, .sub, .mul, .inv, .div, .exp]

theorem mem_legalCommands (i : Instr) : i ∈ legalCommands := by
  cases i <;> decide

theorem exists_opcode_eq_iff (op : BitVec 3) : (∃ i, op = opcode i) ↔ op.toNat ≤ 5 := by
  constructor
  · rintro ⟨i, rfl⟩
    cases i <;> decide
  · intro h
    have hmem : op ∈ legalCommands.map opcode := by decide +revert
    obtain ⟨i, _, hi⟩ := List.mem_map.1 hmem
    exact ⟨i, hi.symm⟩

theorem exists_decode_iff_fields (v : Word) :
    (∃ i, decode v = .ok i) ↔ rsvdField v = 0 ∧ (opField v).toNat ≤ 5 := by
  simp only [decode_eq_ok_iff_fields, exists_and_left, exists_opcode_eq_iff]

theorem exists_decode_iff_mem (v : Word) : (∃ i, decode v = .ok i) ↔ v ∈ legalCommands.map encode := by
  simp only [decode_eq_ok_iff, List.mem_map, mem_legalCommands, true_and, eq_comm (a := v)]

end Sys2Proof

namespace Sys2Proof.Machine

open Sys2Proof.Safety

/-! ### The illegal command -/

/-- The illegal command reads neither operand register (R18, R19). -/
theorem operandsWritten_illegal (s : State) : OperandsWritten .illegal s :=
  ⟨fun hA => absurd hA Bool.false_ne_true, fun hB => absurd hB Bool.false_ne_true⟩

/-- The illegal command has no operand to check, so an idle core always starts it (R59, R61). -/
theorem startFault_illegal {s : State} (h : s.busy = false) : startFault .illegal s = none :=
  (startFault_eq_none_iff .illegal s).2 ⟨h, operandsWritten_illegal s⟩

theorem commandWrite_of_illegal {v : Word} {s : State} (hv : ∀ i, decode v ≠ .ok i) (h : s.busy = false) :
    commandWrite v s = latch .illegal s := by
  rw [commandWrite, ofWord_of_not_ok hv, startCommand, startFault_illegal h]

theorem latch_illegal (s : State) :
    latch .illegal s =
      { s with lop := .illegal, status := 0x00000001, itercnt := 0, mulcnt := 0, ph := .start } := rfl

/-- The first unit step of an illegal command raises IllegalCommand (R61, R89). -/
theorem unitStep_latch_illegal (s : State) : unitStep (latch .illegal s) = raise .illegalCommand (latch .illegal s) :=
  unitStep_of_start (latch_ph .illegal s)

theorem raise_illegalCommand (s : State) : raise .illegalCommand s = { s with status := 0x00000026, ph := .idle } := by
  rw [raise, completeErr, statusErr_illegalCommand]

end Sys2Proof.Machine
end

section

open Sys2Proof Sys2Proof.Machine

/-- Settles O3: the decoder by a word's fields and by the six words, and an illegal word's start and only unit step. -/
theorem illegalWordsStartACommandThatFails : Obligations.IllegalWordsStartACommandThatFails := by
  refine ⟨exists_decode_iff_fields, exists_decode_iff_mem, ?table, ?illegal⟩
  case table =>
    exact ⟨decode_encode .add, decode_encode .sub, decode_encode .mul, decode_encode .inv, decode_encode .div,
      decode_encode .exp⟩
  case illegal =>
    intro v s hv hb
    rw [commandWrite_of_illegal hv hb, unitStep_latch_illegal, raise_illegalCommand, latch_illegal]
    exact ⟨rfl, rfl⟩

end

section
/-! PROOF. A ready command's CMD write and first unit step (R59, R60), what a command computes from any ready state
(R66), and exact addition and subtraction of residues (R67 to R69), for the statements about ADD and SUB. -/

namespace Sys2Proof.Machine

open Sys2Proof.Safety

/-! ### A ready command -/

/-- The word of a command starts it on a ready core (R58, R59). -/
theorem commandWrite_encode_of_ready {i : Instr} {s : State} (h : Ready (.legal i) s) :
    commandWrite (encode i) s = latch (.legal i) s := by
  rw [commandWrite, ofWord_encode, startCommand_of_ready h]

theorem unitStep_latch (op : Op) (s : State) : unitStep (latch op s) = startStep (latch op s) :=
  unitStep_of_start (latch_ph op s)

/-- Every command is ready in some state, on any two operands (R110). -/
theorem exists_ready (op : Op) (a b : Elem) : ∃ s, Ready op s ∧ s.opa = a ∧ s.opb = b := by
  refine ⟨{ State.reset with opa := a, opb := b, opaW := 0xFF, opbW := 0xFF }, ⟨rfl, ?idle, ?writtenA, ?writtenB⟩,
    rfl, rfl⟩
  case idle => exact busy_of_status (w := 0) rfl
  case writtenA => exact fun _ => (allMarked_iff 0xFF).1 rfl
  case writtenB => exact fun _ => (allMarked_iff 0xFF).1 rfl

/-- A command that completes with `f` of its operands from every ready state computes that value and no other. -/
theorem computes_iff_of_completes {i : Instr} {f : Elem → Elem → Elem}
    (hexec : ∀ s, Ready (.legal i) s →
      ∃ t, exec i s = .next t ∧ t.fault = none ∧ t.status = 0x0000000A ∧ t.res = f s.opa s.opb)
    (a b r : Elem) : Computes i a b r ↔ f a b = r := by
  constructor
  · intro hc
    obtain ⟨s, hs, rfl, rfl⟩ := exists_ready (.legal i) a b
    obtain ⟨t, ht, _, _, hres⟩ := hexec s hs
    obtain ⟨u, hu, _, _, hres'⟩ := hc s hs rfl rfl
    obtain rfl : t = u := Host.Outcome.next.inj (ht.symm.trans hu)
    exact hres.symm.trans hres'
  · rintro rfl s hs rfl rfl
    exact hexec s hs

/-! ### ADD and SUB from a ready state -/

theorem exec_add_of_ready {s : State} (h : Ready (.legal .add) s) :
    exec .add s = .next (addStart (latch (.legal .add) s)) :=
  issue_of_ready h

theorem exec_sub_of_ready {s : State} (h : Ready (.legal .sub) s) :
    exec .sub s = .next (subStart (latch (.legal .sub) s)) :=
  issue_of_ready h

/-- ADD's whole next state (R68). -/
theorem addStart_latch (s : State) :
    addStart (latch (.legal .add) s) = { s with
      lop := .legal .add, la := s.opa, lb := s.opb, res := addMod s.opa s.opb
      status := 0x0000000A, itercnt := 0, mulcnt := 0, ph := .idle } := rfl

/-- SUB's whole next state (R69). -/
theorem subStart_latch (s : State) :
    subStart (latch (.legal .sub) s) = { s with
      lop := .legal .sub, la := s.opa, lb := s.opb, res := subMod s.opa s.opb
      status := 0x0000000A, itercnt := 0, mulcnt := 0, ph := .idle } := rfl

theorem computes_add_iff (a b r : Elem) : Computes .add a b r ↔ addMod a b = r :=
  computes_iff_of_completes (fun _ h => ⟨_, exec_add_of_ready h, h.1, rfl, rfl⟩) a b r

theorem computes_sub_iff (a b r : Elem) : Computes .sub a b r ↔ subMod a b = r :=
  computes_iff_of_completes (fun _ h => ⟨_, exec_sub_of_ready h, h.1, rfl, rfl⟩) a b r

/-! ### Exact addition and subtraction -/

theorem addMod_comm (x y : Elem) : addMod x y = addMod y x := by
  rw [addMod, Nat.add_comm, addMod]

theorem addMod_zero (x : Elem) : addMod x 0 = reduce x.toNat := rfl

theorem addMod_self (x : Elem) : addMod x x = reduce (2 * x.toNat) := by
  rw [addMod, Nat.two_mul]

/-- The source's steps give the integer residue: adding `P − (y mod P)` is subtracting y modulo P (R69). -/
theorem subMod_toInt (x y : Elem) : ((subMod x y).toNat : Int) = ((x.toNat : Int) - y.toNat) % Config.P := by
  have hle : y.toNat % Config.P ≤ Config.P := (Nat.mod_lt _ P_pos).le
  rw [subMod_toNat]
  push_cast [Nat.cast_sub hle]
  calc ((x.toNat : Int) + (Config.P - y.toNat % Config.P)) % Config.P
      = (x.toNat - y.toNat % Config.P + Config.P) % Config.P := by ring_nf
    _ = (x.toNat - y.toNat) % Config.P := by rw [Int.add_emod_right, Int.sub_emod_emod]

/-- The difference is the one register value that holds the integer residue (R69). -/
theorem subMod_eq_iff (x y r : Elem) :
    subMod x y = r ↔ (r.toNat : Int) = ((x.toNat : Int) - y.toNat) % Config.P := by
  rw [← subMod_toInt, Nat.cast_inj, BitVec.toNat_inj, eq_comm]

theorem subMod_zero (x : Elem) : subMod x 0 = reduce x.toNat := by
  rw [subMod_eq_iff, reduce_toNat]
  simp

theorem subMod_P (x : Elem) : subMod x pmod = reduce x.toNat := by
  rw [subMod_eq_iff, reduce_toNat, pmod_toNat, Int.sub_emod_right, Int.natCast_mod]

theorem subMod_self (x : Elem) : subMod x x = 0 := by
  rw [subMod_eq_iff, sub_self]
  rfl

/-- `add(a, sub(0, a)) == 0` (R69). -/
theorem addMod_subMod_zero (x : Elem) : addMod x (subMod 0 x) = 0 := by
  have hdvd : (Config.P : Int) ∣ x.toNat + (subMod 0 x).toNat := by
    rw [subMod_toInt, Int.dvd_iff_emod_eq_zero, Int.add_emod_emod]
    simp
  apply BitVec.eq_of_toNat_eq
  rw [addMod_toNat]
  exact Nat.mod_eq_zero_of_dvd (by exact_mod_cast hdvd)

end Sys2Proof.Machine
end

section

open Sys2Proof Sys2Proof.Machine

/-- Settles O12: ADD from a ready state is its CMD write and its Start step, and computes `addMod`; each corner case is a
value of `addMod`. -/
theorem addGivesTheSumModP : Obligations.AddGivesTheSumModP := by
  refine ⟨?nextState, ?operands, ?carry⟩
  case nextState =>
    intro s hs
    have hcmd : commandWrite 0x00000000 s = latch (.legal .add) s := commandWrite_encode_of_ready hs
    rw [exec_add_of_ready hs, hcmd, unitStep_latch, latch_ph]
    exact ⟨congrArg _ (addStart_latch s), rfl, nofun⟩
  case operands =>
    intro a
    simp only [computes_add_iff]
    exact ⟨addMod_zero a, (addMod_comm 0 a).trans (addMod_zero a), addMod_self a⟩
  case carry =>
    simp only [computes_add_iff]
    decide

/-- Settles O13: SUB from a ready state is its CMD write and its Start step, and computes `subMod`, which is the integer
residue. -/
theorem subGivesTheDifferenceModP : Obligations.SubGivesTheDifferenceModP := by
  refine ⟨?nextState, fun a b r => (computes_sub_iff a b r).trans (subMod_eq_iff a b r), ?operands, ?wrap⟩
  case nextState =>
    intro s hs
    have hcmd : commandWrite 0x00000001 s = latch (.legal .sub) s := commandWrite_encode_of_ready hs
    rw [exec_sub_of_ready hs, hcmd, unitStep_latch, latch_ph]
    exact ⟨congrArg _ (subStart_latch s), rfl, nofun⟩
  case operands =>
    intro a
    simp only [computes_sub_iff]
    exact ⟨subMod_zero a, subMod_P a, subMod_self a⟩
  case wrap =>
    simp only [computes_sub_iff, computes_add_iff]
    refine ⟨?_, ?_, ?_, ?_, fun a => ⟨subMod 0 a, rfl, addMod_subMod_zero a⟩⟩ <;> decide

end

section
/-! PROOF. Exact multiplication of residues (R67, R70) and MUL from a ready state (R71), for the statement about MUL. -/

namespace Sys2Proof.Machine

open Sys2Proof.Safety

/-! ### MUL from a ready state -/

theorem exec_mul_of_ready {s : State} (h : Ready (.legal .mul) s) :
    exec .mul s = .next (mulStart (latch (.legal .mul) s)) :=
  issue_of_ready h

/-- MUL's whole next state, with the one multiplication counted (R71). -/
theorem mulStart_latch (s : State) :
    mulStart (latch (.legal .mul) s) = { s with
      lop := .legal .mul, la := s.opa, lb := s.opb, res := mulMod s.opa s.opb
      status := 0x0000000A, itercnt := 0, mulcnt := 1, ph := .idle } := rfl

theorem computes_mul_iff (a b r : Elem) : Computes .mul a b r ↔ mulMod a b = r :=
  computes_iff_of_completes (fun _ h => ⟨_, exec_mul_of_ready h, h.1, rfl, rfl⟩) a b r

/-! ### Exact multiplication -/

theorem mulMod_comm (x y : Elem) : mulMod x y = mulMod y x := by
  rw [mulMod, Nat.mul_comm, mulMod]

theorem mulMod_one (x : Elem) : mulMod x 1 = reduce x.toNat :=
  congrArg reduce (Nat.mul_one x.toNat)

theorem mulMod_self (x : Elem) : mulMod x x = reduce (x.toNat ^ 2) := by
  rw [mulMod, Nat.pow_two]

/-- A multiple of P leaves no residue. -/
theorem mulMod_of_dvd {y : Elem} (h : Config.P ∣ y.toNat) (x : Elem) : mulMod x y = 0 := by
  apply BitVec.eq_of_toNat_eq
  rw [mulMod_toNat]
  exact Nat.mod_eq_zero_of_dvd (h.mul_left x.toNat)

theorem mulMod_zero (x : Elem) : mulMod x 0 = 0 := mulMod_of_dvd (y := 0) (dvd_zero Config.P) x

theorem mulMod_P (x : Elem) : mulMod x pmod = 0 := mulMod_of_dvd pmod_toNat.symm.dvd x

end Sys2Proof.Machine
end

section

open Sys2Proof Sys2Proof.Machine

/-- Settles O14: MUL from a ready state is its CMD write and its Start step, and computes `mulMod`; each corner case is a
value of `mulMod`. -/
theorem mulGivesTheProductModP : Obligations.MulGivesTheProductModP := by
  refine ⟨?nextState, ?operands, ?highHalf⟩
  case nextState =>
    intro s hs
    have hcmd : commandWrite 0x00000002 s = latch (.legal .mul) s := commandWrite_encode_of_ready hs
    rw [exec_mul_of_ready hs, hcmd, unitStep_latch, latch_ph]
    exact ⟨congrArg _ (mulStart_latch s), rfl, nofun⟩
  case operands =>
    intro b
    simp only [computes_mul_iff]
    exact ⟨(mulMod_comm 0 b).trans (mulMod_zero b), (mulMod_comm 1 b).trans (mulMod_one b), mulMod_one b,
      mulMod_self b, (mulMod_comm pmod b).trans (mulMod_P b), mulMod_P b⟩
  case highHalf =>
    simp only [computes_mul_iff]
    decide

end

section
/-! PROOF. The Unit's way through the phases (R60, R75) and the invariant in the loop, for the statements about one
iteration and about the loop's exit. -/

namespace Sys2Proof.Machine

open Sys2Proof.Safety

/-! ### What the unit steps do to the phase -/

theorem expIterate_ph (s : State) : (expIterate s).ph = s.ph := by
  rw [expIterate_eq]

theorem invStart_ph (s : State) : (invStart s).ph = .idle ∨ (invStart s).ph = .expLoop := by
  unfold invStart
  split
  · exact .inl rfl
  · exact .inr rfl

theorem divStart_ph (s : State) : (divStart s).ph = .idle ∨ (divStart s).ph = .expLoop := by
  unfold divStart
  split
  · exact .inl rfl
  · exact .inr rfl

/-- A Start step completes the command or enters the loop, never DivFinal (R60). -/
theorem startStep_ph (s : State) : (startStep s).ph = .idle ∨ (startStep s).ph = .expLoop := by
  unfold startStep
  cases s.lop with
  | illegal => exact .inl rfl
  | legal i =>
    cases i with
    | add | sub | mul => exact .inl rfl
    | inv => exact invStart_ph s
    | div => exact divStart_ph s
    | exp => exact .inr rfl

/-- ExpExit enters DivFinal for DIV alone (R75). -/
theorem expExit_ph_eq_divFinal {s : State} (h : s.ph = .expLoop) (hd : (expExit s).ph = .divFinal) :
    s.lop = .legal .div := by
  cases hlop : s.lop with
  | illegal => simp [expExit, hlop, h] at hd
  | legal i =>
    cases i with
    | div => rfl
    | add | sub | mul | inv | exp => simp [expExit, hlop, h] at hd

/-- The only way into DivFinal is the loop's exit with LOP = DIV (R75). -/
theorem unitStep_enters_divFinal {s : State} (h : s.ph ≠ .divFinal) (hd : (unitStep s).ph = .divFinal) :
    s.ph = .expLoop ∧ s.e = 0 ∧ s.lop = .legal .div := by
  cases hph : s.ph with
  | idle => exact absurd (unitStep_of_idle hph ▸ hd) h
  | start =>
    rw [unitStep_of_start hph] at hd
    rcases startStep_ph s with hs | hs <;> simp [hs] at hd
  | expLoop =>
    by_cases he : s.e = 0
    · rw [unitStep_of_exit hph he] at hd
      exact ⟨rfl, he, expExit_ph_eq_divFinal hph hd⟩
    · rw [unitStep_of_loop hph he, expIterate_ph, hph] at hd
      cases hd
  | divFinal => exact absurd hph h

/-! ### The invariant in the loop -/

/-- Only EXP, INV and DIV run the engine (R77, R82, R83). -/
theorem lop_of_engineRun {s : State} {p : Elem × Elem} (h : engineRun s = some p) :
    s.lop = .legal .exp ∨ s.lop = .legal .inv ∨ s.lop = .legal .div := by
  cases hlop : s.lop with
  | illegal => simp [engineRun, hlop] at h
  | legal i =>
    cases i with
    | add | sub | mul => simp [engineRun, hlop] at h
    | inv | div | exp => simp

theorem machineInv_of_expLoop {s : State} (h : s.ph = .expLoop) :
    MachineInv s ↔ s.status = 0x00000001 ∧ ∃ g x, engineRun s = some (g, x) ∧ EngineInv g x s := by
  simp only [MachineInv, h]

/-- Under the invariant the loop runs for a command that uses the engine (R75). -/
theorem lop_of_machineInv_expLoop {s : State} (hinv : MachineInv s) (h : s.ph = .expLoop) :
    s.lop = .legal .exp ∨ s.lop = .legal .inv ∨ s.lop = .legal .div := by
  obtain ⟨_, _, _, hrun, _⟩ := (machineInv_of_expLoop h).1 hinv
  exact lop_of_engineRun hrun

end Sys2Proof.Machine
end

section

open Sys2Proof Sys2Proof.Machine

/-- Settles O24: a unit step in the loop with bits left is one iteration. -/
theorem iterationMultipliesSquaresAndShifts : Obligations.IterationMultipliesSquaresAndShifts := by
  intro s hph he
  have htwo : s.mulcnt + 1 + 1 = s.mulcnt + 2 := BitVec.add_assoc ..
  rw [unitStep_of_loop hph he, expIterate_eq, htwo]
  rfl

/-- Settles O25: the exit by LOP, DIV's final step, and the one way into DivFinal. -/
theorem loopExitAndFinalProduct : Obligations.LoopExitAndFinalProduct := by
  refine ⟨?exit, ?finalProduct, fun _ => lop_of_machineInv_expLoop, fun _ _ => unitStep_enters_divFinal⟩
  case exit =>
    intro s hph he
    rw [unitStep_of_exit hph he]
    exact ⟨fun hlop => hlop.elim expExit_of_exp expExit_of_inv, expExit_of_div⟩
  case finalProduct =>
    intro s hph
    rw [unitStep_of_divFinal hph]
    rfl

end

section
/-! PROOF. The engine's loop: its power and its counts kept by every iteration (R74, R76, R79), and the loop run at once
as the Unit's steps (R60, R66), for the statements about the commands that use the engine. -/

namespace Sys2Proof.Machine

open Sys2Proof.Safety

/-! ### One iteration -/

theorem getLsbD_zero_eq_true_iff (e : Elem) : e.getLsbD 0 = true ↔ e.toNat % 2 = 1 := by
  rw [BitVec.getLsbD, Nat.testBit_zero, decide_eq_true_iff]

/-- An iteration keeps `RACC · SQ^E` modulo P: the multiply takes the odd factor, the squaring halves the rest (R76). -/
theorem expIterate_power_modEq (s : State) :
    (expIterate s).racc.toNat * (expIterate s).sq.toNat ^ (expIterate s).e.toNat ≡
      s.racc.toNat * s.sq.toNat ^ s.e.toNat [MOD Config.P] := by
  have hsq : (mulMod s.sq s.sq).toNat ^ (s.e.toNat / 2) ≡ s.sq.toNat ^ (2 * (s.e.toNat / 2)) [MOD Config.P] := by
    rw [mulMod_toNat, pow_mul, sq]
    exact (Nat.mod_modEq _ _).pow _
  rw [expIterate_racc, expIterate_sq, expIterate_e, toNat_shiftRight_one]
  split
  case isTrue hbit =>
    have hodd : s.e.toNat = 2 * (s.e.toNat / 2) + 1 := by
      have := (getLsbD_zero_eq_true_iff s.e).1 hbit
      omega
    have hmul : (mulMod s.racc s.sq).toNat ≡ s.racc.toNat * s.sq.toNat [MOD Config.P] := by
      rw [mulMod_toNat]
      exact Nat.mod_modEq _ _
    conv_rhs => rw [hodd, pow_succ', ← mul_assoc]
    exact hmul.mul hsq
  case isFalse hbit =>
    have heven : s.e.toNat = 2 * (s.e.toNat / 2) := by
      have := mt (getLsbD_zero_eq_true_iff s.e).2 hbit
      omega
    conv_rhs => rw [heven]
    exact hsq.mul_left _

/-- RACC stays canonical: it is kept, or a new residue (R76). -/
theorem expIterate_racc_lt {s : State} (h : s.racc.toNat < Config.P) : (expIterate s).racc.toNat < Config.P := by
  rw [expIterate_racc]
  split
  · exact reduce_lt _
  · exact h

/-- SQ is canonical after any squaring (R76). -/
theorem expIterate_sq_lt (s : State) : (expIterate s).sq.toNat < Config.P := by
  rw [expIterate_sq]
  exact reduce_lt _

/-- An iteration counts one (R26). -/
theorem expIterate_itercnt_toNat {s : State} (h : s.itercnt.toNat < 2 ^ 32 - 1) :
    (expIterate s).itercnt.toNat = s.itercnt.toNat + 1 := by
  rw [expIterate_itercnt]
  bv_omega

/-- An iteration counts its squaring, and its multiplication where the bit is set (R27, R74). -/
theorem expIterate_mulcnt_toNat {s : State} (h : s.mulcnt.toNat < 2 ^ 32 - 2) :
    (expIterate s).mulcnt.toNat = s.mulcnt.toNat + 1 + s.e.toNat % 2 := by
  rw [expIterate_mulcnt]
  split
  case isTrue hbit =>
    have hodd := (getLsbD_zero_eq_true_iff s.e).1 hbit
    bv_omega
  case isFalse hbit =>
    have heven := mt (getLsbD_zero_eq_true_iff s.e).2 hbit
    bv_omega

/-! ### The engine's invariant -/

/-- ExpInit establishes the invariant (R73, R76). -/
theorem engineInv_expInit {g x : Elem} {s : State} (hi : s.itercnt = 0) (hm : s.mulcnt = 0) :
    EngineInv g x (expInit g x s) := by
  refine ⟨reduce_lt _, (by decide : (1 : Elem).toNat < Config.P), ?power, ?shift, ?iter, ?mul⟩
  case power =>
    rw [expInit_racc, expInit_sq, expInit_e, reduce_toNat]
    exact congrArg (· % Config.P) (Nat.one_mul _)
  case shift => simp [hi]
  case iter => simp [hi]
  case mul => simp [hm]

/-- Every iteration keeps it (R74, R76, R79). -/
theorem engineInv_expIterate {g x : Elem} {s : State} (h : EngineInv g x s) (he : s.e ≠ 0) :
    EngineInv g x (expIterate s) := by
  obtain ⟨_, hracc, hpow, hshift, hiter, hmul⟩ := h
  have hlen := bitlen_shift s.e he
  have hpop := popcount_shift s.e
  have hlenx := bitlen_le x
  have hpopx := popcount_le x
  have hitercnt : (expIterate s).itercnt.toNat = s.itercnt.toNat + 1 := expIterate_itercnt_toNat (by omega)
  have hmulcnt : (expIterate s).mulcnt.toNat = s.mulcnt.toNat + 1 + s.e.toNat % 2 :=
    expIterate_mulcnt_toNat (by omega)
  refine ⟨expIterate_sq_lt s, expIterate_racc_lt hracc, (expIterate_power_modEq s).trans hpow, ?shift, ?iter, ?mul⟩
  case shift => rw [expIterate_e, hitercnt, BitVec.shiftRight_add, ← hshift]
  case iter => rw [expIterate_e, hitercnt]; omega
  case mul => rw [expIterate_e, hmulcnt]; omega

/-- Where the exponent is used up the invariant gives the power and the counts (R76, R79). -/
theorem engineInv_exit {g x : Elem} {s : State} (h : EngineInv g x s) (he : s.e = 0) :
    s.racc.toNat = g.toNat ^ x.toNat % Config.P ∧ s.itercnt.toNat = bitlen x ∧
      s.mulcnt.toNat = bitlen x + popcount x := by
  obtain ⟨_, hracc, hpow, _, hiter, hmul⟩ := h
  have hzero : s.e.toNat = 0 := congrArg BitVec.toNat he
  rw [hzero, pow_zero, mul_one, Nat.mod_eq_of_lt hracc, ← Nat.pow_mod] at hpow
  rw [he, bitlen_zero, Nat.add_zero] at hiter
  rw [he, bitlen_zero, popcount_zero] at hmul
  exact ⟨hpow, hiter, hmul⟩

/-! ### The loop as iterates of one iteration -/

/-- Each iteration takes one bit off the exponent's length (R79). -/
theorem bitlen_iterate_e (n : Nat) (s : State) : bitlen (expIterate^[n] s).e = bitlen s.e - n := by
  induction n with
  | zero => rfl
  | succ n ih =>
    rw [Function.iterate_succ_apply', expIterate_e]
    by_cases he : (expIterate^[n] s).e = 0
    · rw [he] at ih ⊢
      have h0 : bitlen ((0 : Elem) >>> 1) = 0 := by decide
      rw [bitlen_zero] at ih
      omega
    · have := bitlen_shift _ he
      omega

theorem iterate_e_ne_zero {n : Nat} {s : State} (h : n < bitlen s.e) : (expIterate^[n] s).e ≠ 0 := by
  rw [Ne, ← bitlen_eq_zero_iff, bitlen_iterate_e]
  omega

theorem iterate_bitlen_e (s : State) : (expIterate^[bitlen s.e] s).e = 0 := by
  rw [← bitlen_eq_zero_iff, bitlen_iterate_e, Nat.sub_self]

theorem iterate_onlyEngineMoved (n : Nat) (s : State) : OnlyEngineMoved s (expIterate^[n] s) := by
  induction n with
  | zero => exact .refl s
  | succ n ih =>
    rw [Function.iterate_succ_apply']
    exact ih.trans (expIterate_onlyEngineMoved _)

theorem iterate_ph (n : Nat) (s : State) : (expIterate^[n] s).ph = s.ph := by
  rw [iterate_onlyEngineMoved n s]

theorem iterate_lop (n : Nat) (s : State) : (expIterate^[n] s).lop = s.lop := by
  rw [iterate_onlyEngineMoved n s]

theorem engineInv_iterate {g x : Elem} {n : Nat} {s : State} (h : EngineInv g x s) (hn : n ≤ bitlen s.e) :
    EngineInv g x (expIterate^[n] s) := by
  induction n with
  | zero => exact h
  | succ n ih =>
    rw [Function.iterate_succ_apply']
    exact engineInv_expIterate (ih (Nat.le_of_succ_le hn)) (iterate_e_ne_zero hn)

/-- The loop run at once is one iteration per bit of the exponent (R66, R79). -/
theorem expIterations_eq_iterate {n : Nat} {s : State} (h : bitlen s.e ≤ n) :
    expIterations n s = expIterate^[bitlen s.e] s := by
  induction n generalizing s with
  | zero => rw [Nat.le_zero.1 h]; rfl
  | succ n ih =>
    rw [expIterations]
    split
    case isTrue he => rw [he, bitlen_zero]; rfl
    case isFalse he =>
      have hlen := bitlen_shift s.e he
      rw [ih (by rw [expIterate_e]; omega), expIterate_e, hlen, Function.iterate_succ_apply]

/-- In the loop the Unit iterates once per step, as long as bits are left (R60). -/
theorem unitSteps_of_loop {n : Nat} {s : State} (h : s.ph = .expLoop) (hn : n ≤ bitlen s.e) :
    unitSteps n s = expIterate^[n] s := by
  induction n with
  | zero => rfl
  | succ n ih =>
    have hph : (expIterate^[n] s).ph = .expLoop := (iterate_ph n s).trans h
    rw [unitSteps_add, ih (Nat.le_of_succ_le hn), Function.iterate_succ_apply']
    exact unitStep_of_loop hph (iterate_e_ne_zero hn)

/-- One more step than the exponent has bits leaves the loop (R75, R119). -/
theorem unitSteps_to_exit {s : State} (h : s.ph = .expLoop) :
    unitSteps (bitlen s.e + 1) s = expExit (expIterate^[bitlen s.e] s) := by
  rw [unitSteps_add, unitSteps_of_loop h le_rfl]
  exact unitStep_of_exit ((iterate_ph _ s).trans h) (iterate_bitlen_e s)

/-- The engine run at once does what the Unit's steps through the loop do (R66). -/
theorem runEngine_eq_unitSteps {s : State} (h : s.ph = .expLoop) :
    runEngine s = unitSteps (bitlen s.e + 1) s := by
  rw [runEngine_of_expLoop h, unitSteps_to_exit h]
  exact congrArg expExit (expIterations_eq_iterate (bitlen_le s.e))

end Sys2Proof.Machine
end

section
/-! PROOF. EXP from a ready state (R77), for the statement about EXP. -/

namespace Sys2Proof.Machine

open Sys2Proof.Safety

/-! ### EXP from a ready state -/

/-- EXP's Start step is ExpInit on the latched operands, the whole next state (R73, R77). -/
theorem unitStep_latch_exp (s : State) :
    unitStep (latch (.legal .exp) s) = expInit s.opa s.opb (latch (.legal .exp) s) := rfl

/-- EXP is its unit steps: the Start step, one per bit of the exponent, the exit (R66, R77). -/
theorem exec_exp_of_ready {s : State} (h : Ready (.legal .exp) s) :
    exec .exp s = .next (unitSteps (bitlen s.opb + 2) (latch (.legal .exp) s)) := by
  have hexec : exec .exp s = .next (runEngine (expInit s.opa s.opb (latch (.legal .exp) s))) :=
    issue_of_ready (run := fun t => runEngine (expStart t)) h
  rw [hexec, runEngine_eq_unitSteps (expInit_ph ..), expInit_e, unitSteps_succ _ (latch _ s), unitStep_latch_exp]

/-- EXP's way through the loop: the steps between the Start step and the exit (R60, R77). -/
theorem unitSteps_latch_exp_ph {n : Nat} {s : State} (h1 : 1 ≤ n) (hn : n ≤ bitlen s.opb + 1) :
    (unitSteps n (latch (.legal .exp) s)).ph = .expLoop := by
  obtain ⟨m, rfl⟩ := Nat.exists_eq_add_of_le' h1
  have hm : m ≤ bitlen s.opb := Nat.le_of_succ_le_succ hn
  rw [unitSteps_succ, unitStep_latch_exp, unitSteps_of_loop (expInit_ph ..) hm, iterate_ph, expInit_ph]

/-- EXP's report: the power, STATUS and the counts of the exponent's bits (R77). -/
theorem unitSteps_latch_exp_reports (s : State) :
    Reports (.legal .exp) s.opa s.opb (unitSteps (bitlen s.opb + 2) (latch (.legal .exp) s)) := by
  have hinv : EngineInv s.opa s.opb (expInit s.opa s.opb (latch (.legal .exp) s)) := engineInv_expInit rfl rfl
  have hend : unitSteps (bitlen s.opb + 1) (expInit s.opa s.opb (latch (.legal .exp) s)) = _ :=
    unitSteps_to_exit (expInit_ph ..)
  obtain ⟨hracc, hiter, hmul⟩ := engineInv_exit (engineInv_iterate hinv le_rfl) (iterate_bitlen_e _)
  rw [unitSteps_succ, unitStep_latch_exp, hend, expExit_of_exp (iterate_lop _ _)]
  exact ⟨rfl, hiter, hmul, rfl, hracc⟩

/-! ### The power as a register value -/

/-- `x^y mod P` from the exact power, as `mulMod` is from the exact product (R77). -/
def powMod (x y : Elem) : Elem := reduce (x.toNat ^ y.toNat)

@[simp] theorem powMod_toNat (x y : Elem) : (powMod x y).toNat = x.toNat ^ y.toNat % Config.P :=
  reduce_toNat _

theorem powMod_zero (x : Elem) : powMod x 0 = 1 := congrArg reduce (Nat.pow_zero x.toNat)

theorem powMod_one (x : Elem) : powMod x 1 = reduce x.toNat := congrArg reduce (Nat.pow_one x.toNat)

/-- A power of a multiple of P leaves no residue, unless the exponent is 0. -/
theorem powMod_of_dvd {x y : Elem} (h : Config.P ∣ x.toNat) (hy : y ≠ 0) : powMod x y = 0 := by
  have hne : y.toNat ≠ 0 := fun h0 => hy (BitVec.eq_of_toNat_eq h0)
  apply BitVec.eq_of_toNat_eq
  rw [powMod_toNat]
  exact Nat.mod_eq_zero_of_dvd (dvd_pow h hne)

theorem computes_exp_iff (a b r : Elem) : Computes .exp a b r ↔ powMod a b = r := by
  refine computes_iff_of_completes (fun s hs => ⟨_, exec_exp_of_ready hs, ?_⟩) a b r
  obtain ⟨_, _, _, hstatus, hres⟩ := unitSteps_latch_exp_reports s
  obtain ⟨_, _, _, _, _, _, _, hfault, _⟩ := unitSteps_frame (bitlen s.opb + 2) (latch (.legal .exp) s)
  exact ⟨hfault.trans hs.1, hstatus, BitVec.eq_of_toNat_eq (hres.trans (powMod_toNat _ _).symm)⟩

end Sys2Proof.Machine
end

section

open Sys2Proof Sys2Proof.Machine Sys2Proof.Safety

/-- Settles O15: EXP from a ready state is its Start step, one iteration per bit of OPB and the exit, where the engine's
invariant gives the power and the counts; each corner case is a value of `powMod`. -/
theorem expGivesThePowerModP : Obligations.ExpGivesThePowerModP := by
  refine ⟨?ready, ?corners, ?bits, ?worked, by decide, by decide +kernel⟩
  case ready =>
    intro s hs
    have hcmd : commandWrite 0x00000005 s = latch (.legal .exp) s := commandWrite_encode_of_ready hs
    rw [hcmd]
    refine ⟨⟨_, exec_exp_of_ready hs, ?report⟩, rfl, fun n => unitSteps_latch_exp_ph, exec_exp_of_ready hs⟩
    case report =>
      obtain ⟨hph, hiter, hmul, hstatus, hres⟩ := unitSteps_latch_exp_reports s
      obtain ⟨hopa, hopb, hopaW, hopbW, hlop, hla, hlb, hfault, _⟩ :=
        unitSteps_frame (bitlen s.opb + 2) (latch (.legal .exp) s)
      exact ⟨hfault.trans hs.1, hres, hstatus, hiter, hmul, hph, hlop, hla, hlb, hopa, hopb, hopaW, hopbW⟩
  case corners =>
    intro a b
    simp only [computes_exp_iff]
    exact ⟨powMod_zero a, powMod_one a, fun ha => powMod_of_dvd (Nat.dvd_of_mod_eq_zero ha)⟩
  case bits => decide +kernel
  case worked =>
    rw [computes_exp_iff]
    decide

end

section
/-! PROOF. The inverse of a residue by Fermat's exponent (R14, R81), and the engine's run on that exponent, which INV and
DIV share (R82, R83), for the statements about INV and DIV. -/

namespace Sys2Proof.Machine

open Sys2Proof.Safety

/-! ### The inverse as a register value -/

/-- `inv(x)`, the power that the hardwired exponent gives (R82). -/
def invMod (x : Elem) : Elem := powMod x fermatExponent

theorem invMod_toNat (x : Elem) : (invMod x).toNat = (x.toNat % Config.P) ^ (Config.P - 2) % Config.P := by
  rw [invMod, powMod_toNat, fermatExponent_toNat, Nat.pow_mod]

/-- The inverse rests on the residue alone (R81). -/
theorem invMod_congr {x y : Elem} (h : x.toNat % Config.P = y.toNat % Config.P) : invMod x = invMod y := by
  apply BitVec.eq_of_toNat_eq
  rw [invMod_toNat, invMod_toNat, h]

/-- Fermat's little theorem: `x · x^(P−2) = x^(P−1)` is 1 modulo the prime P (R14). -/
theorem mul_invMod_modEq_one {x : Elem} (h : x.toNat % Config.P ≠ 0) :
    x.toNat * (invMod x).toNat ≡ 1 [MOD Config.P] := by
  have hcop : Nat.Coprime x.toNat Config.P :=
    ((Nat.Prime.coprime_iff_not_dvd P_prime).2 (mt Nat.mod_eq_zero_of_dvd h)).symm
  have hexp : Config.P - 2 + 1 = Nat.totient Config.P := by
    have := P_prime.two_le
    rw [Nat.totient_prime P_prime]
    omega
  rw [invMod, powMod_toNat, fermatExponent_toNat]
  calc x.toNat * (x.toNat ^ (Config.P - 2) % Config.P)
      ≡ x.toNat * x.toNat ^ (Config.P - 2) [MOD Config.P] := (Nat.mod_modEq _ _).mul_left _
    _ = x.toNat ^ Nat.totient Config.P := by rw [← pow_succ', hexp]
    _ ≡ 1 [MOD Config.P] := Nat.ModEq.pow_totient hcop

/-- The field quotient is the one canonical value that the divisor multiplies to the dividend (R83). -/
theorem mulMod_invMod_eq_of_mulMod_eq {a b q : Elem} (hb : b.toNat % Config.P ≠ 0) (hq : q.toNat < Config.P)
    (h : mulMod q b = reduce a.toNat) : mulMod a (invMod b) = q := by
  have hqb : q.toNat * b.toNat ≡ a.toNat [MOD Config.P] := by
    have := congrArg BitVec.toNat h
    rwa [mulMod_toNat, reduce_toNat] at this
  have hmod : a.toNat * (invMod b).toNat ≡ q.toNat [MOD Config.P] :=
    calc a.toNat * (invMod b).toNat
        ≡ q.toNat * b.toNat * (invMod b).toNat [MOD Config.P] := hqb.symm.mul_right _
      _ = q.toNat * (b.toNat * (invMod b).toNat) := Nat.mul_assoc ..
      _ ≡ q.toNat * 1 [MOD Config.P] := (mul_invMod_modEq_one hb).mul_left _
      _ = q.toNat := Nat.mul_one _
  apply BitVec.eq_of_toNat_eq
  rw [mulMod_toNat]
  exact Nat.mod_eq_of_modEq hmod hq

/-- `mul(a, inv(a)) == 1` (R86). -/
theorem mulMod_invMod_self {x : Elem} (h : x.toNat % Config.P ≠ 0) : mulMod x (invMod x) = 1 :=
  mulMod_invMod_eq_of_mulMod_eq h (by decide) ((mulMod_comm 1 x).trans (mulMod_one x))

/-- One times an inverse is that inverse, which is canonical. -/
theorem one_mulMod_invMod (x : Elem) : mulMod 1 (invMod x) = invMod x := by
  apply BitVec.eq_of_toNat_eq
  rw [mulMod_comm, mulMod_one, reduce_toNat, invMod_toNat, Nat.mod_mod]

/-- The inverse is the one canonical value that multiplies to 1 (R82). -/
theorem invMod_eq_of_mulMod_eq_one {x r : Elem} (hx : x.toNat % Config.P ≠ 0) (hr : r.toNat < Config.P)
    (h : mulMod r x = 1) : invMod x = r :=
  (one_mulMod_invMod x).symm.trans (mulMod_invMod_eq_of_mulMod_eq hx hr h)

theorem invMod_one : invMod 1 = 1 :=
  invMod_eq_of_mulMod_eq_one (by decide) (by decide) (by decide)

theorem invMod_two : invMod 2 = BitVec.ofNat 256 ((Config.P + 1) / 2) :=
  invMod_eq_of_mulMod_eq_one (by decide) (by decide) (by decide)

/-- The inverse of a non-zero residue is not zero (R82). -/
theorem invMod_ne_zero {x : Elem} (h : x.toNat % Config.P ≠ 0) : invMod x ≠ 0 := by
  intro hzero
  have hone := mulMod_invMod_self h
  rw [hzero, mulMod_zero] at hone
  exact absurd hone (by decide)

/-! ### The engine on the hardwired exponent -/

section

variable {op : Op} {g : Elem} {s : State}
  (hstart : unitStep (latch op s) = expInit g fermatExponent (latch op s))

include hstart

/-- After the Start step the Unit iterates, once per bit of `P − 2` (R74, R85). -/
theorem unitSteps_latch_of_fermatStart {n : Nat} (hn : n ≤ 256) :
    unitSteps (n + 1) (latch op s) = expIterate^[n] (expInit g fermatExponent (latch op s)) := by
  rw [unitSteps_succ, hstart]
  exact unitSteps_of_loop (expInit_ph ..) (hn.trans_eq bitlen_fermatExponent.symm)

/-- The way through the loop: the steps between the Start step and the exit (R60, R85). -/
theorem ph_of_fermatStart {n : Nat} (h1 : 1 ≤ n) (hn : n ≤ 257) : (unitSteps n (latch op s)).ph = .expLoop := by
  obtain ⟨m, rfl⟩ := Nat.exists_eq_add_of_le' h1
  rw [unitSteps_latch_of_fermatStart hstart (Nat.le_of_succ_le_succ hn), iterate_ph, expInit_ph]

/-- The loop's end: the exponent is used up, RACC holds the inverse, the counters hold the counts of `P − 2`'s bits
(R76, R85). -/
theorem loopEnd_of_fermatStart :
    (unitSteps 257 (latch op s)).e = 0 ∧ (unitSteps 257 (latch op s)).racc = invMod g ∧
      (unitSteps 257 (latch op s)).itercnt = 256 ∧ (unitSteps 257 (latch op s)).mulcnt = 505 := by
  have hinv : EngineInv g fermatExponent (expInit g fermatExponent (latch op s)) := engineInv_expInit rfl rfl
  have he := iterate_bitlen_e (expInit g fermatExponent (latch op s))
  rw [expInit_e, bitlen_fermatExponent] at he
  have hend := engineInv_iterate (n := 256) hinv bitlen_fermatExponent.ge
  obtain ⟨hracc, hiter, hmul⟩ := engineInv_exit hend he
  rw [bitlen_fermatExponent] at hiter hmul
  rw [popcount_fermatExponent] at hmul
  rw [unitSteps_latch_of_fermatStart hstart le_rfl]
  exact ⟨he, BitVec.eq_of_toNat_eq (hracc.trans (powMod_toNat _ _).symm), BitVec.eq_of_toNat_eq hiter,
    BitVec.eq_of_toNat_eq hmul⟩

/-- The step after the loop's end is ExpExit (R75). -/
theorem unitSteps_exit_of_fermatStart :
    unitSteps 258 (latch op s) = expExit (unitSteps 257 (latch op s)) := by
  have hexit := unitStep_of_exit (ph_of_fermatStart hstart (by decide) le_rfl) (loopEnd_of_fermatStart hstart).1
  exact (unitSteps_add 257 1 _).trans hexit

/-- The engine run at once is the Unit's steps through ExpExit (R66). -/
theorem runEngine_of_fermatStart : runEngine (unitStep (latch op s)) = unitSteps 258 (latch op s) := by
  rw [unitSteps_succ 257, hstart, runEngine_eq_unitSteps (expInit_ph ..), expInit_e, bitlen_fermatExponent]

end

end Sys2Proof.Machine
end

section
/-! PROOF. INV and DIV from a ready state (R82 to R85), for the statements about INV and DIV. -/

namespace Sys2Proof.Machine

open Sys2Proof.Safety

/-- DivisionByZero's whole report: STATUS and the phase (R81, R87). -/
theorem raise_divisionByZero (s : State) :
    raise .divisionByZero s = { s with status := 0x00000016, ph := .idle } := rfl

/-! ### INV from a ready state -/

/-- INV's Start step is ExpInit on OPA and `P − 2`, the whole next state (R73, R82). -/
theorem unitStep_latch_inv {s : State} (h : s.opa.toNat % Config.P ≠ 0) :
    unitStep (latch (.legal .inv) s) = expInit s.opa fermatExponent (latch (.legal .inv) s) :=
  invStart_of_nonzero h

/-- INV is its Start step and the engine (R66, R82). -/
theorem exec_inv_of_ready {s : State} (h : Ready (.legal .inv) s) :
    exec .inv s = .next (runEngine (unitStep (latch (.legal .inv) s))) :=
  issue_of_ready (run := fun t => runEngine (invStart t)) h

/-- INV of a non-zero residue is its 258 unit steps (R66, R85). -/
theorem exec_inv_of_nonzero {s : State} (h : Ready (.legal .inv) s) (ha : s.opa.toNat % Config.P ≠ 0) :
    exec .inv s = .next (unitSteps 258 (latch (.legal .inv) s)) := by
  rw [exec_inv_of_ready h, runEngine_of_fermatStart (unitStep_latch_inv ha)]

/-- INV of a zero residue ends in its Start step, the whole next state (R81, R82). -/
theorem exec_inv_of_zero {s : State} (h : Ready (.legal .inv) s) (ha : s.opa.toNat % Config.P = 0) :
    exec .inv s = .next { s with
      lop := .legal .inv, la := s.opa, status := 0x00000016, itercnt := 0, mulcnt := 0, ph := .idle } := by
  have hstart : unitStep (latch (.legal .inv) s) = raise .divisionByZero (latch (.legal .inv) s) :=
    invStart_of_zero ha
  rw [exec_inv_of_ready h, hstart, runEngine_of_idle (raise_ph ..), raise_divisionByZero]
  rfl

/-- INV's exit completes with the inverse and the counts of the loop (R75, R82). -/
theorem unitSteps_latch_inv {s : State} (ha : s.opa.toNat % Config.P ≠ 0) :
    unitSteps 258 (latch (.legal .inv) s) =
      completeOk (invMod s.opa) (unitSteps 257 (latch (.legal .inv) s)) := by
  have hstart := unitStep_latch_inv ha
  obtain ⟨_, hracc, _⟩ := loopEnd_of_fermatStart hstart
  obtain ⟨_, _, _, _, hlop, _⟩ := unitSteps_frame 257 (latch (.legal .inv) s)
  rw [unitSteps_exit_of_fermatStart hstart, expExit_of_inv hlop, hracc]

/-- INV's counts are the loop's (R85). -/
theorem unitSteps_latch_inv_counts {s : State} (ha : s.opa.toNat % Config.P ≠ 0) :
    (unitSteps 258 (latch (.legal .inv) s)).itercnt = 256 ∧
      (unitSteps 258 (latch (.legal .inv) s)).mulcnt = 505 := by
  obtain ⟨_, _, hiter, hmul⟩ := loopEnd_of_fermatStart (unitStep_latch_inv ha)
  rw [unitSteps_latch_inv ha, completeOk_itercnt, completeOk_mulcnt]
  exact ⟨hiter, hmul⟩

theorem computes_inv {a r : Elem} (ha : a.toNat % Config.P ≠ 0) (h : invMod a = r) (b : Elem) :
    Computes .inv a b r := by
  rintro s hs rfl rfl
  obtain ⟨_, _, _, _, _, _, _, hfault, _⟩ := unitSteps_frame 258 (latch (.legal .inv) s)
  refine ⟨_, exec_inv_of_nonzero hs ha, hfault.trans hs.1, ?_⟩
  rw [unitSteps_latch_inv ha]
  exact ⟨rfl, h⟩

theorem dividesByZero_inv {a : Elem} (ha : a.toNat % Config.P = 0) (b : Elem) : DividesByZero .inv a b := by
  rintro s hs rfl rfl
  exact ⟨_, exec_inv_of_zero hs ha, hs.1, rfl, rfl⟩

/-! ### DIV from a ready state -/

/-- DIV's Start step is ExpInit on OPB and `P − 2`, the whole next state (R73, R83). -/
theorem unitStep_latch_div {s : State} (h : s.opb.toNat % Config.P ≠ 0) :
    unitStep (latch (.legal .div) s) = expInit s.opb fermatExponent (latch (.legal .div) s) :=
  divStart_of_nonzero h

/-- DIV is its Start step, the engine and the final product (R66, R83). -/
theorem exec_div_of_ready {s : State} (h : Ready (.legal .div) s) :
    exec .div s = .next (finishDiv (runEngine (unitStep (latch (.legal .div) s)))) :=
  issue_of_ready (run := fun t => finishDiv (runEngine (divStart t))) h

/-- DIV's exit asks for the final product (R75). -/
theorem unitSteps_latch_div_exit {s : State} (hb : s.opb.toNat % Config.P ≠ 0) :
    unitSteps 258 (latch (.legal .div) s) = { unitSteps 257 (latch (.legal .div) s) with ph := .divFinal } := by
  obtain ⟨_, _, _, _, hlop, _⟩ := unitSteps_frame 257 (latch (.legal .div) s)
  rw [unitSteps_exit_of_fermatStart (unitStep_latch_div hb), expExit_of_div hlop]

theorem unitSteps_latch_div_ph {s : State} (hb : s.opb.toNat % Config.P ≠ 0) :
    (unitSteps 258 (latch (.legal .div) s)).ph = .divFinal := by
  rw [unitSteps_latch_div_exit hb]

/-- The step after the exit is DivFinalStep (R84). -/
theorem unitSteps_latch_div_final {s : State} (hb : s.opb.toNat % Config.P ≠ 0) :
    unitSteps 259 (latch (.legal .div) s) = divFinalStep (unitSteps 258 (latch (.legal .div) s)) := by
  have hfinal := unitStep_of_divFinal (unitSteps_latch_div_ph hb)
  exact (unitSteps_add 258 1 _).trans hfinal

/-- DIV by a non-zero residue is its 259 unit steps (R66, R85). -/
theorem exec_div_of_nonzero {s : State} (h : Ready (.legal .div) s) (hb : s.opb.toNat % Config.P ≠ 0) :
    exec .div s = .next (unitSteps 259 (latch (.legal .div) s)) := by
  rw [exec_div_of_ready h, runEngine_of_fermatStart (unitStep_latch_div hb),
    finishDiv_of_divFinal (unitSteps_latch_div_ph hb), unitSteps_latch_div_final hb]

/-- DIV by a zero residue ends in its Start step, the whole next state (R81, R83). -/
theorem exec_div_of_zero {s : State} (h : Ready (.legal .div) s) (hb : s.opb.toNat % Config.P = 0) :
    exec .div s = .next { s with
      lop := .legal .div, la := s.opa, lb := s.opb
      status := 0x00000016, itercnt := 0, mulcnt := 0, ph := .idle } := by
  have hstart : unitStep (latch (.legal .div) s) = raise .divisionByZero (latch (.legal .div) s) :=
    divStart_of_zero hb
  rw [exec_div_of_ready h, hstart, runEngine_of_idle (raise_ph ..), finishDiv_of_idle (raise_ph ..),
    raise_divisionByZero]
  rfl

/-- DIV's final step completes with the quotient, and counts its product (R83, R84). -/
theorem unitSteps_latch_div {s : State} (hb : s.opb.toNat % Config.P ≠ 0) :
    unitSteps 259 (latch (.legal .div) s) =
      completeOk (mulMod s.opa (invMod s.opb)) (countMul (unitSteps 258 (latch (.legal .div) s))) := by
  obtain ⟨_, hracc, _⟩ := loopEnd_of_fermatStart (unitStep_latch_div hb)
  obtain ⟨_, _, _, _, _, hla, _⟩ := unitSteps_frame 258 (latch (.legal .div) s)
  have hracc' : (unitSteps 258 (latch (.legal .div) s)).racc = invMod s.opb := by
    rw [unitSteps_latch_div_exit hb, hracc]
  rw [unitSteps_latch_div_final hb, divFinalStep, hla, hracc']
  rfl

/-- DIV's counts: the loop's, and the final product (R85). -/
theorem unitSteps_latch_div_counts {s : State} (hb : s.opb.toNat % Config.P ≠ 0) :
    (unitSteps 259 (latch (.legal .div) s)).itercnt = 256 ∧
      (unitSteps 259 (latch (.legal .div) s)).mulcnt = 506 := by
  obtain ⟨_, _, hiter, hmul⟩ := loopEnd_of_fermatStart (unitStep_latch_div hb)
  rw [unitSteps_latch_div hb, unitSteps_latch_div_exit hb]
  rw [completeOk_itercnt, completeOk_mulcnt, countMul_itercnt, countMul_mulcnt, hiter, hmul]
  decide

theorem computes_div {a b r : Elem} (hb : b.toNat % Config.P ≠ 0) (h : mulMod a (invMod b) = r) :
    Computes .div a b r := by
  rintro s hs rfl rfl
  obtain ⟨_, _, _, _, _, _, _, hfault, _⟩ := unitSteps_frame 259 (latch (.legal .div) s)
  refine ⟨_, exec_div_of_nonzero hs hb, hfault.trans hs.1, ?_⟩
  rw [unitSteps_latch_div hb]
  exact ⟨rfl, h⟩

theorem dividesByZero_div (a : Elem) {b : Elem} (hb : b.toNat % Config.P = 0) : DividesByZero .div a b := by
  rintro s hs rfl rfl
  exact ⟨_, exec_div_of_zero hs hb, hs.1, rfl, rfl⟩

end Sys2Proof.Machine
end

section

open Sys2Proof Sys2Proof.Machine Sys2Proof.Safety

/-- Settles O16: INV from a ready state tests OPA, runs the engine's loop on `P − 2` and exits with `invMod`; each corner
case is the one canonical value that multiplies to 1. -/
theorem invGivesTheFermatInverse : Obligations.InvGivesTheFermatInverse := by
  refine ⟨?nonzero, fun s hs ha => exec_inv_of_zero hs ha, ?corners⟩
  case nonzero =>
    intro s hs ha
    have hcmd : commandWrite 0x00000003 s = latch (.legal .inv) s := commandWrite_encode_of_ready hs
    have hstart := unitStep_latch_inv ha
    rw [hcmd]
    refine ⟨⟨_, exec_inv_of_nonzero hs ha, ?report⟩, hstart, fun n => ph_of_fermatStart hstart,
      exec_inv_of_nonzero hs ha⟩
    case report =>
      obtain ⟨hiter, hmul⟩ := unitSteps_latch_inv_counts ha
      obtain ⟨hopa, hopb, hopaW, hopbW, hlop, hla, hlb, hfault, _⟩ :=
        unitSteps_frame 258 (latch (.legal .inv) s)
      refine ⟨hfault.trans hs.1, ?res, ?status, hiter, hmul, ?ph, hlop, hla, hlb, hopa, hopb, hopaW, hopbW⟩
      case res => rw [unitSteps_latch_inv ha, completeOk_res, invMod_toNat]
      case status => rw [unitSteps_latch_inv ha, completeOk_status]; rfl
      case ph => rw [unitSteps_latch_inv ha, completeOk_ph]
  case corners =>
    intro b
    have hcanon : (BitVec.allOnes 256).toNat % Config.P = (0x1000003D0 : Elem).toNat % Config.P := by decide
    have hminusOne : invMod (BitVec.ofNat 256 (Config.P - 1)) = BitVec.ofNat 256 (Config.P - 1) :=
      invMod_eq_of_mulMod_eq_one (by decide) (by decide) (by decide)
    have hplusOne : invMod (BitVec.ofNat 256 (Config.P + 1)) = 1 :=
      invMod_eq_of_mulMod_eq_one (by decide) (by decide) (by decide)
    exact ⟨computes_inv (by decide) invMod_one b, computes_inv (by decide) hminusOne b,
      computes_inv (by decide) hplusOne b,
      ⟨_, computes_inv (by decide) (invMod_congr hcanon) b, computes_inv (by decide) rfl b⟩,
      dividesByZero_inv (by decide) b, dividesByZero_inv (by decide) b, computes_inv (by decide) invMod_two b,
      fun a ha => ⟨_, invMod_ne_zero ha, computes_inv ha rfl b⟩⟩

/-- Settles O17: DIV from a ready state tests OPB, runs the engine's loop on `P − 2` and multiplies OPA by the inverse;
each corner case is a quotient by a non-zero residue. -/
theorem divGivesTheFieldQuotient : Obligations.DivGivesTheFieldQuotient := by
  refine ⟨?nonzero, fun s hs hb => exec_div_of_zero hs hb, ?quotients, dividesByZero_div 5 (by decide),
    dividesByZero_div 5 (by decide), ?canonical, ?half, ?worked⟩
  case nonzero =>
    intro s hs hb
    have hcmd : commandWrite 0x00000004 s = latch (.legal .div) s := commandWrite_encode_of_ready hs
    have hstart := unitStep_latch_div hb
    rw [hcmd]
    refine ⟨⟨_, exec_div_of_nonzero hs hb, ?report⟩, hstart, fun n => ph_of_fermatStart hstart,
      unitSteps_latch_div_ph hb, exec_div_of_nonzero hs hb⟩
    case report =>
      obtain ⟨hiter, hmul⟩ := unitSteps_latch_div_counts hb
      obtain ⟨hopa, hopb, hopaW, hopbW, hlop, hla, hlb, hfault, _⟩ :=
        unitSteps_frame 259 (latch (.legal .div) s)
      refine ⟨hfault.trans hs.1, ?res, ?status, hiter, hmul, ?ph, hlop, hla, hlb, hopa, hopb, hopaW, hopbW⟩
      case res => rw [unitSteps_latch_div hb, completeOk_res, mulMod_toNat, invMod_toNat]
      case status => rw [unitSteps_latch_div hb, completeOk_status]; rfl
      case ph => rw [unitSteps_latch_div hb, completeOk_ph]
  case quotients =>
    intro a
    have hbyOne : mulMod a (invMod 1) = reduce a.toNat := by rw [invMod_one, mulMod_one]
    exact ⟨computes_div (by decide) hbyOne, fun ha => ⟨computes_div ha (mulMod_invMod_self ha),
      computes_div ha ((mulMod_comm 0 _).trans (mulMod_zero _))⟩⟩
  case canonical =>
    refine computes_div (by decide) ?_
    rw [invMod_one]
    decide
  case half =>
    exact fun b => ⟨_, invMod_ne_zero (by decide), computes_inv (by decide) rfl b,
      computes_div (by decide) (one_mulMod_invMod 2)⟩
  case worked =>
    exact computes_div (by decide) (mulMod_invMod_eq_of_mulMod_eq (by decide) (by decide) (by decide))

end

section
/-! PROOF. The architected errors' reports (R87 to R89), the Start steps that raise DivisionByZero (R81, R88), the
checks of a CMD write (R93), and a set FAULT (R101), for the statements about the exceptions. -/

namespace Sys2Proof.Machine

open Sys2Proof.Safety

/-! ### An error's report -/

theorem done_of_status {s : State} {w : Word} (h : s.status = w) : s.done = w.getLsbD 1 := by
  rw [State.done, h]

theorem err_of_status {s : State} {w : Word} (h : s.status = w) : s.err = w.getLsbD 2 := by
  rw [State.err, h]

theorem errcode_of_status {s : State} {w : Word} (h : s.status = w) : s.errcode = w.extractLsb' 4 4 := by
  rw [State.errcode, h]

/-- What STATUS says of an architected error: DONE, ERR, the error's code, and no valid result (R62, R87). -/
theorem report_of_statusErr {s : State} (x : ArchError) (h : s.status = statusErr x.code) :
    s.done = true ∧ s.err = true ∧ s.errcode = x.code ∧ s.rvalid = false := by
  rw [done_of_status h, err_of_status h, errcode_of_status h, rvalid_of_status h]
  cases x with
  | divisionByZero => decide
  | illegalCommand => decide

/-! ### DivisionByZero -/

/-- The two register values with a zero residue: twice P is more than a register holds (R81). -/
theorem mod_P_eq_zero_iff (x : Elem) : x.toNat % Config.P = 0 ↔ x = 0 ∨ x = pmod := by
  constructor
  · intro h
    obtain ⟨k, hk⟩ := Nat.dvd_of_mod_eq_zero h
    have hbound : Config.P * k < Config.P * 2 := hk ▸ x.isLt.trans (by decide)
    have hk2 : k < 2 := Nat.lt_of_mul_lt_mul_left hbound
    interval_cases k
    · exact .inl (BitVec.eq_of_toNat_eq hk)
    · exact .inr (BitVec.eq_of_toNat_eq (hk.trans pmod_toNat.symm))
  · rintro (rfl | rfl)
    · exact Nat.zero_mod _
    · rw [pmod_toNat, Nat.mod_self]

/-- A command inverts a zero residue: INV of OPA, DIV of OPB (R81). -/
def InvertsZero (i : Instr) (a b : Elem) : Prop :=
  (i = .inv ∧ a.toNat % Config.P = 0) ∨ (i = .div ∧ b.toNat % Config.P = 0)

/-- The inversion of a zero residue ends in its Start step (R82, R83, R88). -/
theorem unitStep_latch_of_invertsZero {i : Instr} {s : State} (h : InvertsZero i s.opa s.opb) :
    unitStep (latch (.legal i) s) = raise .divisionByZero (latch (.legal i) s) := by
  obtain ⟨rfl, ha⟩ | ⟨rfl, hb⟩ := h
  · exact invStart_of_zero ha
  · exact divStart_of_zero hb

theorem unitStep_latch_status_of_invertsZero {i : Instr} {s : State} (h : InvertsZero i s.opa s.opb) :
    (unitStep (latch (.legal i) s)).status = statusErr ArchError.divisionByZero.code := by
  rw [unitStep_latch_of_invertsZero h, raise_status]

/-- No other Start step of a legal command raises an error: it completes, or it enters the loop and leaves STATUS as the
command start wrote it (R87). -/
theorem unitStep_latch_err_of_not_invertsZero {i : Instr} {s : State} (h : ¬ InvertsZero i s.opa s.opb) :
    (unitStep (latch (.legal i) s)).err = false := by
  cases i with
  | add | sub | mul => exact err_of_status (w := statusOk) rfl
  | inv =>
    rw [unitStep_latch_inv fun ha => h (.inl ⟨rfl, ha⟩)]
    exact err_of_status (w := statusStarted) rfl
  | div =>
    rw [unitStep_latch_div fun hb => h (.inr ⟨rfl, hb⟩)]
    exact err_of_status (w := statusStarted) rfl
  | exp => exact err_of_status (w := statusStarted) rfl

/-- ERR after the Start step of a legal command is DivisionByZero's (R88). -/
theorem unitStep_latch_err_iff (i : Instr) (s : State) :
    (unitStep (latch (.legal i) s)).err = true ↔ InvertsZero i s.opa s.opb := by
  constructor
  · intro herr
    by_contra hz
    rw [unitStep_latch_err_of_not_invertsZero hz] at herr
    exact Bool.false_ne_true herr
  · intro hz
    obtain ⟨_, herr, _⟩ := report_of_statusErr .divisionByZero (unitStep_latch_status_of_invertsZero hz)
    exact herr

/-- INV of a zero residue is its one unit step (R66, R82). -/
theorem exec_inv_eq_unitStep_of_zero {s : State} (h : Ready (.legal .inv) s) (ha : s.opa.toNat % Config.P = 0) :
    exec .inv s = .next (unitStep (latch (.legal .inv) s)) := by
  rw [exec_inv_of_ready h, unitStep_latch_of_invertsZero (.inl ⟨rfl, ha⟩), runEngine_of_idle (raise_ph ..)]

/-- DIV by a zero residue is its one unit step (R66, R83). -/
theorem exec_div_eq_unitStep_of_zero {s : State} (h : Ready (.legal .div) s) (hb : s.opb.toNat % Config.P = 0) :
    exec .div s = .next (unitStep (latch (.legal .div) s)) := by
  rw [exec_div_of_ready h, unitStep_latch_of_invertsZero (.inr ⟨rfl, hb⟩), runEngine_of_idle (raise_ph ..),
    finishDiv_of_idle (raise_ph ..)]

/-! ### IllegalCommand -/

/-- On an idle core the illegal command is its CMD write and its one unit step (R61, R66). -/
theorem execIllegal_of_idle {s : State} (hf : s.fault = none) (hb : s.busy = false) :
    execIllegal s = .next (raise .illegalCommand (latch .illegal s)) :=
  issue_of_ready ⟨hf, hb, operandsWritten_illegal s⟩

/-! ### The checks of a CMD write -/

/-- The operands of a legal command are written exactly when neither check of R93 items 4 and 5 fails. -/
theorem operandsWritten_legal_iff (i : Instr) (s : State) :
    OperandsWritten (.legal i) s ↔
      ¬ (∃ k, marked s.opaW k = false) ∧ ¬ (i ≠ .inv ∧ ∃ k, marked s.opbW k = false) := by
  simp only [OperandsWritten, Written, readsA_legal, readsB_legal, forall_const, not_and, not_exists,
    Bool.not_eq_false]

/-- On an idle core an unwritten operand word is the check that fails (R59, R93). -/
theorem startFault_of_unwritten {op : Op} {s : State} (hb : s.busy = false) (hw : ¬ OperandsWritten op s) :
    startFault op s = some .unwrittenOperand := by
  refine (startFault_idle_cases op hb).resolve_left fun hnone => ?_
  obtain ⟨_, hwritten⟩ := (startFault_eq_none_iff op s).1 hnone
  exact hw hwritten

/-- A CMD write whose check fails sets FAULT and starts no command (R59, R93). -/
theorem hostTurn_cmd_of_startFault {v : Word} {r : Fault} {s : State} (hf : s.fault = none)
    (h : startFault (Op.ofWord v) s = some r) :
    hostTurn (.write 0x00 4 v) s = .next { s with fault := some r } := by
  refine hostTurn_write_of_eq hf ?_
  rw [memWrite_cmd, commandWrite, startCommand, h]
  exact raiseFault_of_none hf

/-- A CMD write on a core that is ready for the command starts it (R59, R93). -/
theorem hostTurn_cmd_of_ready {v : Word} {s : State} (h : Ready (Op.ofWord v) s) :
    hostTurn (.write 0x00 4 v) s = .next (latch (Op.ofWord v) s) :=
  hostTurn_write_of_eq h.1 (commandWrite_of_ready h)

/-! ### A set FAULT -/

/-- No unit step writes FAULT (R101). -/
theorem unitStep_fault (s : State) : (unitStep s).fault = s.fault := by
  obtain ⟨_, _, _, _, _, _, _, hfault, _⟩ := unitStep_frame s
  exact hfault

/-- A set FAULT allows no unit step (R101). -/
theorem unitTurn_of_fault {s : State} {r : Fault} (h : s.fault = some r) : unitTurn s = .fault r := by
  rw [unitTurn, h]

/-- Every command is issued: its CMD write and its own unit steps (R59, R66). -/
theorem exists_exec_eq_issue (i : Instr) : ∃ run, exec i = issue (.legal i) run := by
  cases i with
  | add => exact ⟨addStart, rfl⟩
  | sub => exact ⟨subStart, rfl⟩
  | mul => exact ⟨mulStart, rfl⟩
  | inv => exact ⟨fun t => runEngine (invStart t), rfl⟩
  | div => exact ⟨fun t => finishDiv (runEngine (divStart t)), rfl⟩
  | exp => exact ⟨fun t => runEngine (expStart t), rfl⟩

/-- A set FAULT allows no command (R101). -/
theorem exec_of_fault (i : Instr) {s : State} {r : Fault} (h : s.fault = some r) : exec i s = .fault r := by
  obtain ⟨run, hrun⟩ := exists_exec_eq_issue i
  rw [hrun, issue_of_fault h]

theorem execIllegal_of_fault {s : State} {r : Fault} (h : s.fault = some r) : execIllegal s = .fault r :=
  issue_of_fault h

/-- The one step that a set FAULT allows is a reset (R101, R107). -/
theorem step_of_fault_is_reset {s t : State} {r : Fault} (hf : s.fault = some r) (h : step s = .next t) :
    ∃ rest, s.agenda = .reset :: rest ∧ t = hardReset { s with agenda := rest } := by
  have hset : s.fault ≠ none := by simp [hf]
  obtain ⟨_, hnone, _⟩ | ⟨ev, rest, hag, hev⟩ := step_cases h
  · exact absurd hnone hset
  · obtain ⟨_, hnone, _⟩ | ⟨_, _, hnone, _⟩ | ⟨rfl, ht⟩ | ⟨_, _, ⟨i, _, hexec⟩ | ⟨_, hexec⟩⟩ := hev
    · exact absurd hnone hset
    · exact absurd hnone hset
    · exact ⟨rest, hag, ht⟩
    · cases hexec.symm.trans (exec_of_fault i hf)
    · cases hexec.symm.trans (execIllegal_of_fault hf)

end Sys2Proof.Machine
end

section

open Sys2Proof Sys2Proof.Machine Sys2Proof.Safety

/-- Settles O18: the values of a zero residue, the one unit step of INV and of DIV on it, and what STATUS then
reports. -/
theorem divisionByZeroIsReported : Obligations.DivisionByZeroIsReported := by
  refine ⟨mod_P_eq_zero_iff, ?inv, ?div, ?report⟩
  case inv =>
    intro s hs ha
    have hcmd : commandWrite 0x00000003 s = latch (.legal .inv) s := commandWrite_encode_of_ready hs
    rw [hcmd]
    exact ⟨exec_inv_of_zero hs ha, exec_inv_eq_unitStep_of_zero hs ha⟩
  case div =>
    intro s hs hb
    have hcmd : commandWrite 0x00000004 s = latch (.legal .div) s := commandWrite_encode_of_ready hs
    rw [hcmd]
    exact ⟨exec_div_of_zero hs hb, exec_div_eq_unitStep_of_zero hs hb⟩
  case report =>
    intro s k hstatus
    obtain ⟨hdone, herr, hcode, hrvalid⟩ := report_of_statusErr .divisionByZero hstatus
    refine ⟨hdone, herr, hcode, hrvalid, ?_⟩
    rw [readAnswer_res, hrvalid, if_neg Bool.false_ne_true]

/-- Settles O19: the illegal command's one unit step, what STATUS then reports, and a CMD write that is the same latch
for every illegal word. -/
theorem illegalCommandIsReported : Obligations.IllegalCommandIsReported := by
  refine ⟨fun s hf hb => ⟨?whole, ?unitStep⟩, fun s => report_of_statusErr .illegalCommand, ?word, ?operands⟩
  case whole =>
    rw [execIllegal_of_idle hf hb, raise_illegalCommand, latch_illegal]
  case unitStep =>
    intro v hv
    rw [execIllegal_of_idle hf hb, commandWrite_of_illegal hv hb, unitStep_latch_illegal]
  case word =>
    intro v w s hv hw
    rw [commandWrite, commandWrite, ofWord_of_not_ok hv, ofWord_of_not_ok hw]
  case operands =>
    intro v s x y hv hb
    have hb' : { s with opa := x, opb := y, opaW := 0, opbW := 0 }.busy = false := hb
    rw [commandWrite_of_illegal hv hb, commandWrite_of_illegal hv hb', latch_illegal, latch_illegal]

/-- Settles O35: the checks of a CMD write in R93's order, and the Start step of the command that passes them. -/
theorem commandWriteChecksInOrder : Obligations.CommandWriteChecksInOrder := by
  intro s v
  refine ⟨fun r => hostTurn_of_fault _, fun hf => ?_⟩
  split
  case isTrue hb => exact hostTurn_cmd_of_startFault hf (startFault_of_busy _ hb)
  case isFalse hb =>
    have hidle : s.busy = false := Bool.eq_false_iff.2 hb
    cases hd : decode v with
    | error _ =>
      have hop : Op.ofWord v = .illegal := ofWord_of_not_ok (by simp [hd])
      have hturn := hostTurn_cmd_of_ready (v := v) ⟨hf, hidle, hop ▸ operandsWritten_illegal s⟩
      rw [hop] at hturn
      refine ⟨_, hturn, hf, rfl, rfl, ?status, (unitStep_fault _).trans hf, rfl, rfl⟩
      case status => rw [unitStep_latch_illegal, raise_status, statusErr_illegalCommand]
    | ok i =>
      have hop : Op.ofWord v = .legal i := ofWord_of_ok hd
      have hunwritten (hw : ¬ OperandsWritten (.legal i) s) :
          hostTurn (.write 0x00 4 v) s = .next { s with fault := some .unwrittenOperand } :=
        hostTurn_cmd_of_startFault hf (startFault_of_unwritten hidle (hop ▸ hw))
      rw [operandsWritten_legal_iff] at hunwritten
      dsimp only
      split_ifs with hA hB
      · exact hunwritten fun ⟨hnA, _⟩ => hnA hA
      · exact hunwritten fun ⟨_, hnB⟩ => hnB hB
      · have hready : Ready (.legal i) s := ⟨hf, hidle, (operandsWritten_legal_iff i s).2 ⟨hA, hB⟩⟩
        have hturn := hostTurn_cmd_of_ready (v := v) (hop ▸ hready)
        rw [hop] at hturn
        refine ⟨_, hturn, hf, rfl, rfl, ?la, rfl, (unitStep_fault _).trans hf, unitStep_latch_err_iff i s, ?code⟩
        case la => rw [latch_la, readsA_legal, if_pos rfl]
        case code => exact fun herr => unitStep_latch_status_of_invertsZero ((unitStep_latch_err_iff i s).1 herr)

/-- Settles O42: what `raiseFault` writes, that no turn and no command is enabled with FAULT set, and that the one step
left is a reset, which keeps FAULT. -/
theorem faultIsStickyAndQuiescent : Obligations.FaultIsStickyAndQuiescent := by
  refine ⟨fun _ _ => raiseFault_of_none, fun _ _ _ => raiseFault_of_some, ?quiescent, ?sticky⟩
  case quiescent =>
    intro s r hf
    refine ⟨fun a => hostTurn_of_fault a hf, unitTurn_of_fault hf, fun i => exec_of_fault i hf,
      execIllegal_of_fault hf, (hardReset_fault s).trans hf, ?notFinal⟩
    case notFinal =>
      rintro ⟨_, hnone, _⟩
      exact Option.some_ne_none r (hf.symm.trans hnone)
  case sticky =>
    intro s t r hf hstep
    obtain ⟨rest, hag, rfl⟩ := step_of_fault_is_reset hf hstep
    exact ⟨hf, rest, hag⟩

end

section
/-! PROOF. The decoder on the bytes of a word (R44, R63), for the statement about the whole encoding. -/

namespace Sys2Proof

/-- Four bytes make a word exactly when they are that word's bytes (R44). -/
theorem bytesToWord_eq_iff (b0 b1 b2 b3 : Byte) (v : Word) :
    bytesToWord b0 b1 b2 b3 = v ↔ [b0, b1, b2, b3] = wordToBytes v := by
  constructor
  · rintro rfl
    exact (Machine.wordToBytes_bytesToWord b0 b1 b2 b3).symm
  · intro h
    obtain ⟨rfl, rfl, rfl, rfl⟩ : b0 = byteOf v 0 ∧ b1 = byteOf v 1 ∧ b2 = byteOf v 2 ∧ b3 = byteOf v 3 := by
      simpa [wordToBytes] using h
    exact Machine.bytesToWord_byteOf v

/-- The byte decoder reads a command from the four bytes of its own word alone (R44, R63). -/
theorem decodeBytes_eq_ok_iff (bs : List Byte) (i : Instr) : decodeBytes bs = .ok i ↔ bs = encodeBytes i := by
  match bs with
  | [b0, b1, b2, b3] => exact (decode_eq_ok_iff _ i).trans (bytesToWord_eq_iff b0 b1 b2 b3 _)
  | [] | [_] | [_, _] | [_, _, _] | _ :: _ :: _ :: _ :: _ :: _ =>
    exact iff_of_false nofun (by simp [encodeBytes, wordToBytes])

end Sys2Proof
end

section

open Sys2Proof Sys2Proof.Machine Sys2Proof.Safety

/-- Settles O2: a word is known from its two fields, and from its four bytes. -/
theorem decodeAndEncodeAgree : Obligations.DecodeAndEncodeAgree :=
  ⟨fun i v => decode_eq_ok_iff v i, fun i bs => decodeBytes_eq_ok_iff bs i⟩

/-- Settles O1: the six words are the encodings of the six commands, and the others are refused by the field that is
wrong. -/
theorem sampleCommandWordsDecode : Obligations.SampleCommandWordsDecode := by
  refine ⟨decode_encode .add, decode_encode .sub, decode_encode .mul, decode_encode .inv, decode_encode .div,
    decode_encode .exp, ?_, ?_, ?_, ?_⟩ <;> decide

end

section
/-! PROOF. What the Unit's steps do not read (R18, R30), what they can do to STATUS and RES (R62), and every command
as its unit steps (R66, R119), for the statements about runs and about the invariant. -/

namespace Sys2Proof.Machine

open Sys2Proof.Safety

/-! ### The host's side of the state -/

/-- `s` with the host's side of `h`: the operand registers and their marks, and the model's own fields. -/
def withHostSide (h s : State) : State :=
  { s with
    opa := h.opa, opb := h.opb, opaW := h.opaW, opbW := h.opbW
    agenda := h.agenda, replies := h.replies, draws := h.draws }

theorem invStart_withHostSide (h s : State) : invStart (withHostSide h s) = withHostSide h (invStart s) := by
  by_cases hz : s.la.toNat % Config.P = 0
  · rw [invStart_of_zero hz, invStart_of_zero (s := withHostSide h s) hz]
    rfl
  · rw [invStart_of_nonzero hz, invStart_of_nonzero (s := withHostSide h s) hz]
    rfl

theorem divStart_withHostSide (h s : State) : divStart (withHostSide h s) = withHostSide h (divStart s) := by
  by_cases hz : s.lb.toNat % Config.P = 0
  · rw [divStart_of_zero hz, divStart_of_zero (s := withHostSide h s) hz]
    rfl
  · rw [divStart_of_nonzero hz, divStart_of_nonzero (s := withHostSide h s) hz]
    rfl

theorem startStep_withHostSide (h s : State) : startStep (withHostSide h s) = withHostSide h (startStep s) := by
  have hlop : (withHostSide h s).lop = s.lop := rfl
  unfold startStep
  rw [hlop]
  cases s.lop with
  | illegal => rfl
  | legal i =>
    cases i with
    | add | sub | mul | exp => rfl
    | inv => exact invStart_withHostSide h s
    | div => exact divStart_withHostSide h s

theorem expExit_withHostSide (h s : State) : expExit (withHostSide h s) = withHostSide h (expExit s) := by
  have hlop : (withHostSide h s).lop = s.lop := rfl
  unfold expExit
  rw [hlop]
  cases s.lop with
  | illegal => rfl
  | legal i => cases i <;> rfl

/-- The Unit works the same whatever stands on the host's side, and leaves it as it is (R18, R30). -/
theorem unitStep_withHostSide (h s : State) : unitStep (withHostSide h s) = withHostSide h (unitStep s) := by
  cases hph : s.ph with
  | idle => rw [unitStep_of_idle hph, unitStep_of_idle (s := withHostSide h s) hph]
  | start =>
    rw [unitStep_of_start hph, unitStep_of_start (s := withHostSide h s) hph]
    exact startStep_withHostSide h s
  | expLoop =>
    by_cases he : s.e = 0
    · rw [unitStep_of_exit hph he, unitStep_of_exit (s := withHostSide h s) hph he]
      exact expExit_withHostSide h s
    · rw [unitStep_of_loop hph he, unitStep_of_loop (s := withHostSide h s) hph he, expIterate_eq, expIterate_eq]
      rfl
  | divFinal =>
    rw [unitStep_of_divFinal hph, unitStep_of_divFinal (s := withHostSide h s) hph]
    rfl

theorem unitSteps_withHostSide (n : Nat) (h s : State) :
    unitSteps n (withHostSide h s) = withHostSide h (unitSteps n s) := by
  induction n generalizing s with
  | zero => rfl
  | succ n ih => rw [unitSteps_succ, unitStep_withHostSide, ih, unitSteps_succ]

/-! ### What unit steps do to STATUS and RES -/

/-- From `s` to `t` STATUS and RES stay, or the unit completes and reports (R62). -/
def KeepsOrReports (s t : State) : Prop :=
  (t.status = s.status ∧ t.res = s.res) ∨ (t.status = statusOk ∧ t.ph = .idle) ∨
    ∃ x : ArchError, t.status = statusErr x.code ∧ t.ph = .idle ∧ t.res = s.res

theorem KeepsOrReports.refl (s : State) : KeepsOrReports s s := .inl ⟨rfl, rfl⟩

theorem completeOk_reports (s : State) (r : Elem) (t : State) : KeepsOrReports s (completeOk r t) :=
  .inr (.inl ⟨rfl, rfl⟩)

theorem raise_reports (x : ArchError) (s : State) : KeepsOrReports s (raise x s) := .inr (.inr ⟨x, rfl, rfl, rfl⟩)

theorem startStep_reports (s : State) : KeepsOrReports s (startStep s) := by
  unfold startStep
  cases s.lop with
  | illegal => exact raise_reports .illegalCommand s
  | legal i =>
    cases i with
    | add | sub | mul => exact completeOk_reports s _ _
    | exp => exact .inl ⟨rfl, rfl⟩
    | inv =>
      by_cases hz : s.la.toNat % Config.P = 0
      · rw [invStart_of_zero hz]
        exact raise_reports .divisionByZero s
      · rw [invStart_of_nonzero hz]
        exact .inl ⟨rfl, rfl⟩
    | div =>
      by_cases hz : s.lb.toNat % Config.P = 0
      · rw [divStart_of_zero hz]
        exact raise_reports .divisionByZero s
      · rw [divStart_of_nonzero hz]
        exact .inl ⟨rfl, rfl⟩

theorem expExit_reports (s : State) : KeepsOrReports s (expExit s) := by
  unfold expExit
  cases s.lop with
  | illegal => exact .refl s
  | legal i =>
    cases i with
    | add | sub | mul => exact .refl s
    | div => exact .inl ⟨rfl, rfl⟩
    | inv | exp => exact completeOk_reports s _ _

/-- All that a unit step can do to STATUS and RES (R60, R62). -/
theorem unitStep_reports (s : State) : KeepsOrReports s (unitStep s) := by
  cases hph : s.ph with
  | idle =>
    rw [unitStep_of_idle hph]
    exact .refl s
  | start =>
    rw [unitStep_of_start hph]
    exact startStep_reports s
  | expLoop =>
    by_cases he : s.e = 0
    · rw [unitStep_of_exit hph he]
      exact expExit_reports s
    · rw [unitStep_of_loop hph he, expIterate_eq]
      exact .inl ⟨rfl, rfl⟩
  | divFinal =>
    rw [unitStep_of_divFinal hph]
    exact completeOk_reports s _ _

/-- A unit that has completed rests, so any number of unit steps does no more (R60). -/
theorem unitSteps_reports (n : Nat) (s : State) : KeepsOrReports s (unitSteps n s) := by
  induction n generalizing s with
  | zero => exact .refl s
  | succ n ih =>
    rw [unitSteps_succ]
    rcases unitStep_reports s with ⟨hstatus, hres⟩ | ⟨hstatus, hph⟩ | ⟨x, hstatus, hph, hres⟩
    · have hrest := ih (unitStep s)
      rwa [KeepsOrReports, hstatus, hres] at hrest
    · exact .inr (.inl (by rw [unitSteps_of_idle n hph]; exact ⟨hstatus, hph⟩))
    · exact .inr (.inr ⟨x, by rw [unitSteps_of_idle n hph]; exact ⟨hstatus, hph, hres⟩⟩)

/-- RES changes by a successful completion alone (R21, R62). -/
theorem KeepsOrReports.res {s t : State} (h : KeepsOrReports s t) :
    t.res = s.res ∨ t.status = statusOk ∧ t.ph = .idle := by
  rcases h with ⟨_, hres⟩ | hok | ⟨_, _, _, hres⟩
  · exact .inl hres
  · exact .inr hok
  · exact .inl hres

/-- No unit step clears STATUS (R25). -/
theorem KeepsOrReports.status_ne_zero {s t : State} (h : KeepsOrReports s t) (hs : s.status ≠ 0) :
    t.status ≠ 0 := by
  rcases h with ⟨hstatus, _⟩ | ⟨hstatus, _⟩ | ⟨x, hstatus, _⟩ <;> rw [hstatus]
  · exact hs
  · decide
  · cases x <;> decide

theorem latch_status_ne_zero (op : Op) (s : State) : (latch op s).status ≠ 0 := by
  rw [latch_status]
  decide

/-! ### Commands as their unit steps -/

/-- A command run at once is its CMD write and its unit steps (R66). -/
theorem exec_of_ready {i : Instr} {s : State} (h : Ready (.legal i) s) :
    exec i s = .next (unitSteps (unitStepCount (.legal i) s.opa s.opb) (latch (.legal i) s)) := by
  cases i with
  | add => exact exec_add_of_ready h
  | sub => exact exec_sub_of_ready h
  | mul => exact exec_mul_of_ready h
  | exp => exact exec_exp_of_ready h
  | inv =>
    by_cases ha : s.opa.toNat % Config.P = 0
    · rw [exec_inv_eq_unitStep_of_zero h ha, unitStepCount, if_pos ha]
      rfl
    · rw [exec_inv_of_nonzero h ha, unitStepCount, if_neg ha]
  | div =>
    by_cases hb : s.opb.toNat % Config.P = 0
    · rw [exec_div_eq_unitStep_of_zero h hb, unitStepCount, if_pos hb]
      rfl
    · rw [exec_div_of_nonzero h hb, unitStepCount, if_neg hb]

/-- All that a command run at once can do when it answers a next state, as unit steps (R59, R66). -/
theorem exec_cases {i : Instr} {s t : State} (h : exec i s = .next t) :
    (∃ r, t = { s with fault := some r }) ∨
    (Ready (.legal i) s ∧ t = unitSteps (unitStepCount (.legal i) s.opa s.opb) (latch (.legal i) s)) := by
  obtain ⟨run, hrun⟩ := exists_exec_eq_issue i
  obtain ⟨hf, ⟨r, _, ht⟩ | ⟨hcheck, _⟩⟩ := issue_cases (hrun ▸ h)
  · exact .inl ⟨r, ht⟩
  · have hready : Ready (.legal i) s := ⟨hf, (startFault_eq_none_iff _ s).1 hcheck⟩
    exact .inr ⟨hready, Host.Outcome.next.inj (h.symm.trans (exec_of_ready hready))⟩

theorem execIllegal_cases {s t : State} (h : execIllegal s = .next t) :
    (∃ r, t = { s with fault := some r }) ∨ t = unitSteps 1 (latch .illegal s) := by
  obtain ⟨_, ⟨r, _, ht⟩ | ⟨_, ht⟩⟩ := issue_cases h
  · exact .inl ⟨r, ht⟩
  · exact .inr ht

end Sys2Proof.Machine
end

section

open Sys2Proof Sys2Proof.Machine

/-- Settles O30: the operand registers stand on the host's side, which the Unit neither reads nor writes. -/
theorem unitStepsIgnoreTheOperandRegisters : Obligations.UnitStepsIgnoreTheOperandRegisters := by
  intro s x y m n k
  have hunit := unitSteps_withHostSide k { s with opa := x, opb := y, opaW := m, opbW := n } s
  obtain ⟨_, _, _, _, _, _, _, _, hagenda, hreplies, hdraws⟩ := unitSteps_frame k s
  refine hunit.trans ?_
  rw [withHostSide, ← hagenda, ← hreplies, ← hdraws]

end

section
/-! PROOF. The invariant through the phases of the Unit (R25, R62, R76), for the statements about the invariant. -/

namespace Sys2Proof.Machine

open Sys2Proof.Safety

/-! ### The invariant by phase -/

theorem machineInv_of_idle {s : State} (h : s.ph = .idle) :
    MachineInv s ↔ s.status = 0x00000000 ∧ s.itercnt = 0 ∧ s.mulcnt = 0 ∨ Reports s.lop s.la s.lb s := by
  simp only [MachineInv, h]

theorem machineInv_of_start {s : State} (h : s.ph = .start) :
    MachineInv s ↔ s.status = 0x00000001 ∧ s.itercnt = 0 ∧ s.mulcnt = 0 := by
  simp only [MachineInv, h]

theorem machineInv_of_divFinal {s : State} (h : s.ph = .divFinal) :
    MachineInv s ↔ s.status = 0x00000001 ∧ s.lop = .legal .div ∧ s.e = 0 ∧
      ∃ g x, engineRun s = some (g, x) ∧ EngineInv g x s := by
  simp only [MachineInv, h]

theorem machineInv_latch (op : Op) (s : State) : MachineInv (latch op s) := ⟨rfl, rfl, rfl⟩

theorem machineInv_hardReset (s : State) : MachineInv (hardReset s) := .inl ⟨rfl, rfl, rfl⟩

/-! ### What a completion reports -/

/-- A successful completion meets the invariant when the result and the counts are its latched command's (R62). -/
theorem machineInv_completeOk {op : Op} {r : Elem} {s : State} (hlop : s.lop = op)
    (hr : fieldResult op s.la.toNat s.lb.toNat = .ok r.toNat) (hiter : s.itercnt.toNat = iterCount op s.la s.lb)
    (hmul : s.mulcnt.toNat = mulCount op s.la s.lb) : MachineInv (completeOk r s) := by
  subst hlop
  refine (machineInv_of_idle (completeOk_ph r s)).2 (.inr ⟨rfl, hiter, hmul, ?_⟩)
  rw [completeOk_lop, completeOk_la, completeOk_lb, hr]
  exact ⟨rfl, rfl⟩

/-- An error completion meets the invariant when the error and the counts are its latched command's (R62, R87). -/
theorem machineInv_raise {op : Op} {x : ArchError} {s : State} (hlop : s.lop = op)
    (hr : fieldResult op s.la.toNat s.lb.toNat = .error x) (hiter : s.itercnt.toNat = iterCount op s.la s.lb)
    (hmul : s.mulcnt.toNat = mulCount op s.la s.lb) : MachineInv (raise x s) := by
  subst hlop
  refine (machineInv_of_idle (raise_ph x s)).2 (.inr ⟨rfl, hiter, hmul, ?_⟩)
  rw [raise_lop, raise_la, raise_lb, hr]
  cases x with
  | divisionByZero => rfl
  | illegalCommand => rfl

theorem fieldResult_inv {a : Elem} (b : Nat) (h : a.toNat % Config.P ≠ 0) :
    fieldResult (.legal .inv) a.toNat b = .ok (invMod a).toNat := by
  rw [fieldResult, if_neg h, invMod_toNat]

theorem fieldResult_div (a : Elem) {b : Elem} (h : b.toNat % Config.P ≠ 0) :
    fieldResult (.legal .div) a.toNat b.toNat = .ok (mulMod a (invMod b)).toNat := by
  rw [fieldResult, if_neg h, mulMod_toNat, invMod_toNat]

/-- Every result is canonical (R5). -/
theorem fieldResult_lt {op : Op} {a b r : Nat} (h : fieldResult op a b = .ok r) : r < Config.P := by
  cases op with
  | illegal => cases h
  | legal i =>
    cases i with
    | add | sub | mul | exp =>
      rw [← Except.ok.inj h]
      exact Nat.mod_lt _ P_pos
    | inv | div =>
      rw [fieldResult] at h
      split at h
      · cases h
      · rw [← Except.ok.inj h]
        exact Nat.mod_lt _ P_pos

/-! ### The Start step -/

/-- The Start step of INV keeps the invariant: it reports a zero residue, or establishes the engine's (R82). -/
theorem machineInv_invStart {s : State} (hstatus : s.status = 0x00000001) (hi : s.itercnt = 0) (hm : s.mulcnt = 0)
    (hlop : s.lop = .legal .inv) : MachineInv (invStart s) := by
  by_cases hz : s.la.toNat % Config.P = 0
  · rw [invStart_of_zero hz]
    have hi' : s.itercnt.toNat = 0 := congrArg BitVec.toNat hi
    have hm' : s.mulcnt.toNat = 0 := congrArg BitVec.toNat hm
    exact machineInv_raise hlop (if_pos hz) (hi'.trans (if_pos hz).symm) (hm'.trans (if_pos hz).symm)
  · rw [invStart_of_nonzero hz]
    refine ⟨hstatus, s.la, fermatExponent, ?_, engineInv_expInit hi hm⟩
    simp only [engineRun, expInit_lop, expInit_la, hlop]
    exact if_neg hz

/-- The Start step of DIV likewise, on the divisor (R83). -/
theorem machineInv_divStart {s : State} (hstatus : s.status = 0x00000001) (hi : s.itercnt = 0) (hm : s.mulcnt = 0)
    (hlop : s.lop = .legal .div) : MachineInv (divStart s) := by
  by_cases hz : s.lb.toNat % Config.P = 0
  · rw [divStart_of_zero hz]
    have hi' : s.itercnt.toNat = 0 := congrArg BitVec.toNat hi
    have hm' : s.mulcnt.toNat = 0 := congrArg BitVec.toNat hm
    exact machineInv_raise hlop (if_pos hz) (hi'.trans (if_pos hz).symm) (hm'.trans (if_pos hz).symm)
  · rw [divStart_of_nonzero hz]
    refine ⟨hstatus, s.lb, fermatExponent, ?_, engineInv_expInit hi hm⟩
    simp only [engineRun, expInit_lop, expInit_lb, hlop]
    exact if_neg hz

/-- Every Start step keeps the invariant: it reports, or it establishes the engine's (R60). -/
theorem machineInv_startStep {s : State} (hstatus : s.status = 0x00000001) (hi : s.itercnt = 0) (hm : s.mulcnt = 0) :
    MachineInv (startStep s) := by
  have hi' : s.itercnt.toNat = 0 := congrArg BitVec.toNat hi
  have hm' : s.mulcnt.toNat = 0 := congrArg BitVec.toNat hm
  unfold startStep
  cases hlop : s.lop with
  | illegal => exact machineInv_raise hlop rfl hi' hm'
  | legal i =>
    cases i with
    | add => exact machineInv_completeOk hlop (congrArg _ (addMod_toNat _ _).symm) hi' hm'
    | sub => exact machineInv_completeOk hlop (congrArg _ (subMod_toNat _ _).symm) hi' hm'
    | mul =>
      have hcount : (countMul s).mulcnt.toNat = 1 := by rw [countMul_mulcnt, hm]; rfl
      exact machineInv_completeOk hlop (congrArg _ (mulMod_toNat _ _).symm) hi' hcount
    | inv => exact machineInv_invStart hstatus hi hm hlop
    | div => exact machineInv_divStart hstatus hi hm hlop
    | exp =>
      refine ⟨hstatus, s.la, s.lb, ?_, engineInv_expInit hi hm⟩
      simp only [engineRun, expStart, expInit_lop, expInit_la, expInit_lb, hlop]

/-! ### The loop and the final product -/

theorem engineRun_of_exp {s : State} {g x : Elem} (hlop : s.lop = .legal .exp) (h : engineRun s = some (g, x)) :
    g = s.la ∧ x = s.lb := by
  simp only [engineRun, hlop, Option.some.injEq, Prod.mk.injEq] at h
  exact ⟨h.1.symm, h.2.symm⟩

/-- INV runs the engine on a non-zero residue with the hardwired exponent (R82). -/
theorem engineRun_of_inv {s : State} {g x : Elem} (hlop : s.lop = .legal .inv) (h : engineRun s = some (g, x)) :
    s.la.toNat % Config.P ≠ 0 ∧ g = s.la ∧ x = fermatExponent := by
  simp only [engineRun, hlop] at h
  split at h
  · cases h
  · cases h
    exact ⟨‹_›, rfl, rfl⟩

theorem engineRun_of_div {s : State} {g x : Elem} (hlop : s.lop = .legal .div) (h : engineRun s = some (g, x)) :
    s.lb.toNat % Config.P ≠ 0 ∧ g = s.lb ∧ x = fermatExponent := by
  simp only [engineRun, hlop] at h
  split at h
  · cases h
  · cases h
    exact ⟨‹_›, rfl, rfl⟩

/-- At the exit of a run on the hardwired exponent RACC is the inverse, and the counts are those of `P − 2` (R85). -/
theorem engineInv_fermat_exit {g : Elem} {s : State} (h : EngineInv g fermatExponent s) (he : s.e = 0) :
    s.racc = invMod g ∧ s.itercnt.toNat = 256 ∧ s.mulcnt.toNat = 505 := by
  obtain ⟨hracc, hiter, hmul⟩ := engineInv_exit h he
  rw [bitlen_fermatExponent] at hiter hmul
  rw [popcount_fermatExponent] at hmul
  exact ⟨BitVec.eq_of_toNat_eq (hracc.trans (powMod_toNat _ _).symm), hiter, hmul⟩

/-- ExpExit keeps the invariant: EXP and INV report, DIV goes on to its final product (R75). -/
theorem machineInv_expExit {s : State} {g x : Elem} (hstatus : s.status = 0x00000001) (he : s.e = 0)
    (hrun : engineRun s = some (g, x)) (hinv : EngineInv g x s) : MachineInv (expExit s) := by
  rcases lop_of_engineRun hrun with hlop | hlop | hlop
  · obtain ⟨rfl, rfl⟩ := engineRun_of_exp hlop hrun
    obtain ⟨hracc, hiter, hmul⟩ := engineInv_exit hinv he
    rw [expExit_of_exp hlop]
    exact machineInv_completeOk hlop (congrArg _ hracc.symm) hiter hmul
  · obtain ⟨hz, rfl, rfl⟩ := engineRun_of_inv hlop hrun
    obtain ⟨hracc, hiter, hmul⟩ := engineInv_fermat_exit hinv he
    rw [expExit_of_inv hlop, hracc]
    exact machineInv_completeOk hlop (fieldResult_inv s.lb.toNat hz) (hiter.trans (if_neg hz).symm)
      (hmul.trans (if_neg hz).symm)
  · rw [expExit_of_div hlop]
    exact ⟨hstatus, hlop, he, g, x, hrun, hinv⟩

/-- DivFinalStep keeps the invariant: it reports the quotient and counts its product (R84). -/
theorem machineInv_divFinalStep {s : State} {g x : Elem} (hlop : s.lop = .legal .div) (he : s.e = 0)
    (hrun : engineRun s = some (g, x)) (hinv : EngineInv g x s) : MachineInv (divFinalStep s) := by
  obtain ⟨hz, rfl, rfl⟩ := engineRun_of_div hlop hrun
  obtain ⟨hracc, hiter, hmul⟩ := engineInv_fermat_exit hinv he
  have hcount : (countMul s).mulcnt.toNat = 506 := by
    rw [countMul_mulcnt, BitVec.eq_of_toNat_eq (y := 505) hmul]
    rfl
  rw [divFinalStep, hracc]
  exact machineInv_completeOk (s := countMul s) hlop (fieldResult_div s.la hz) (hiter.trans (if_neg hz).symm)
    (hcount.trans (if_neg hz).symm)

theorem engineRun_expIterate (s : State) : engineRun (expIterate s) = engineRun s := by
  rw [expIterate_eq]
  rfl

/-- Every unit step keeps the invariant (R60). -/
theorem machineInv_unitStep {s : State} (h : MachineInv s) : MachineInv (unitStep s) := by
  cases hph : s.ph with
  | idle => rwa [unitStep_of_idle hph]
  | start =>
    obtain ⟨hstatus, hi, hm⟩ := (machineInv_of_start hph).1 h
    rw [unitStep_of_start hph]
    exact machineInv_startStep hstatus hi hm
  | expLoop =>
    obtain ⟨hstatus, g, x, hrun, hinv⟩ := (machineInv_of_expLoop hph).1 h
    by_cases he : s.e = 0
    · rw [unitStep_of_exit hph he]
      exact machineInv_expExit hstatus he hrun hinv
    · rw [unitStep_of_loop hph he, machineInv_of_expLoop ((expIterate_ph s).trans hph), engineRun_expIterate]
      refine ⟨?_, g, x, hrun, engineInv_expIterate hinv he⟩
      rw [expIterate_eq]
      exact hstatus
  | divFinal =>
    obtain ⟨_, hlop, he, g, x, hrun, hinv⟩ := (machineInv_of_divFinal hph).1 h
    rw [unitStep_of_divFinal hph]
    exact machineInv_divFinalStep hlop he hrun hinv

theorem machineInv_unitSteps (n : Nat) {s : State} (h : MachineInv s) : MachineInv (unitSteps n s) := by
  induction n generalizing s with
  | zero => exact h
  | succ n ih => exact ih (machineInv_unitStep h)

end Sys2Proof.Machine
end

section
/-! PROOF. All that a step of the machine and an access of the window can do, in terms of what writes the core (R41,
R42, R59, R60), and what that keeps (R21, R25, R62). -/

namespace Sys2Proof.Machine

open Sys2Proof.Safety

/-! ### What an access and a step can do -/

/-- A write of the window sets a fault, starts a command or writes an operand word (R41, R59). -/
theorem memWrite_effects (off : Offset) (size : Nat) (v : Word) (s : State) :
    (∃ r, memWrite off size v s = raiseFault r s) ∨ (∃ op, memWrite off size v s = latch op s) ∨
    (∃ k, memWrite off size v s = writeOpa k v s) ∨ (∃ k, memWrite off size v s = writeOpb k v s) := by
  obtain h | ⟨_, h⟩ | ⟨k, _, h⟩ | ⟨k, _, h⟩ := memWrite_cases off size v s
  · exact .inl ⟨_, h⟩
  · obtain ⟨r, _, hr⟩ | ⟨_, hl⟩ := startCommand_cases (Op.ofWord v) s
    · exact .inl ⟨r, h.trans hr⟩
    · exact .inr (.inl ⟨_, h.trans hl⟩)
  · exact .inr (.inr (.inl ⟨k, h⟩))
  · exact .inr (.inr (.inr ⟨k, h⟩))

/-- A read of the window writes FAULT and the host's side alone (R42). -/
theorem memRead_eq (off : Offset) (size : Nat) (s : State) :
    memRead off size s =
      { s with
        fault := (memRead off size s).fault, replies := (memRead off size s).replies
        draws := (memRead off size s).draws } := by
  obtain ⟨_, _, h⟩ | ⟨_, _, h⟩ | ⟨_, _, h⟩ := memRead_cases off size s
  · rw [h]
  · rw [h]
  · rw [h]
    rfl

/-- What a step that is neither a reset nor an access can do: set a fault, or make unit steps, after a command start or
from where the Unit is (R59, R60, R66). -/
def Works (s t : State) : Prop :=
  (∃ r, t = { s with fault := some r }) ∨ (∃ n, t = unitSteps n s) ∨ ∃ op n, t = unitSteps n (latch op s)

/-- All that a step can do, by what writes the core. -/
theorem step_effects {s t : State} (h : step s = .next t) :
    (∃ rest, s.agenda = .reset :: rest ∧ t = hardReset { s with agenda := rest }) ∨
    (∃ a rest, s.agenda = .access a :: rest ∧ t = access a { s with agenda := rest }) ∨
    ∃ rest, Works { s with agenda := rest } t := by
  obtain ⟨_, _, ht⟩ | ⟨ev, rest, hag, hev⟩ := step_cases h
  · exact .inr (.inr ⟨s.agenda, .inr (.inl ⟨1, ht⟩)⟩)
  · obtain ⟨_, _, ht⟩ | ⟨a, rfl, _, ht⟩ | ⟨rfl, ht⟩ | ⟨v, _, ⟨i, _, hexec⟩ | ⟨_, hexec⟩⟩ := hev
    · exact .inr (.inr ⟨rest, .inr (.inl ⟨1, ht⟩)⟩)
    · exact .inr (.inl ⟨a, rest, hag, ht⟩)
    · exact .inl ⟨rest, hag, ht⟩
    · obtain hfault | ⟨_, ht⟩ := exec_cases hexec
      · exact .inr (.inr ⟨rest, .inl hfault⟩)
      · exact .inr (.inr ⟨rest, .inr (.inr ⟨_, _, ht⟩)⟩)
    · obtain hfault | ht := execIllegal_cases hexec
      · exact .inr (.inr ⟨rest, .inl hfault⟩)
      · exact .inr (.inr ⟨rest, .inr (.inr ⟨_, _, ht⟩)⟩)

/-! ### The invariant -/

/-- Every access of the window keeps the invariant: it writes no register that the invariant speaks of, or starts a
command. -/
theorem machineInv_access (a : Access) {s : State} (h : MachineInv s) : MachineInv (access a s) := by
  cases a with
  | read off size =>
    rw [access, memRead_eq]
    exact h
  | write off size v =>
    rw [access]
    obtain ⟨_, hw⟩ | ⟨op, hw⟩ | ⟨_, hw⟩ | ⟨_, hw⟩ := memWrite_effects off size v s <;> rw [hw]
    · exact h
    · exact machineInv_latch op s
    · exact h
    · exact h

theorem machineInv_of_works {s t : State} (hs : MachineInv s) (h : Works s t) : MachineInv t := by
  obtain ⟨_, rfl⟩ | ⟨n, rfl⟩ | ⟨op, n, rfl⟩ := h
  · exact hs
  · exact machineInv_unitSteps n hs
  · exact machineInv_unitSteps n (machineInv_latch op s)

/-- Every step of every agent keeps the invariant. -/
theorem machineInv_step {s t : State} (hs : MachineInv s) (h : step s = .next t) : MachineInv t := by
  obtain ⟨_, _, rfl⟩ | ⟨a, _, _, rfl⟩ | ⟨rest, hw⟩ := step_effects h
  · exact machineInv_hardReset _
  · exact machineInv_access a hs
  · exact machineInv_of_works (s := { s with agenda := rest }) hs hw

/-! ### STATUS -/

/-- The five words of STATUS (R25). -/
def statusWords : List Word := [0x00000000, 0x00000001, 0x0000000A, 0x00000016, 0x00000026]

theorem forall_mem_statusWords {p : Word → Prop} :
    (∀ w ∈ statusWords, p w) ↔ p 0x00000000 ∧ p 0x00000001 ∧ p 0x0000000A ∧ p 0x00000016 ∧ p 0x00000026 := by
  simp [statusWords]

/-- The rules (a) to (d) on the five words, bit by bit (R24, R25). -/
theorem statusWords_rules : ∀ w ∈ statusWords,
    (w.getLsbD 0 = true → w.getLsbD 1 = false ∧ w.getLsbD 2 = false ∧ w.getLsbD 3 = false ∧
      w.extractLsb' 4 4 = 0) ∧
    (w.getLsbD 2 = true ↔ w.extractLsb' 4 4 ≠ 0) ∧
    (w.getLsbD 1 = true → w.getLsbD 0 = false ∧ (w.getLsbD 2 != w.getLsbD 3) = true) ∧
    (w.getLsbD 0 = false → w.getLsbD 1 = false → w.getLsbD 2 = false ∧ w.getLsbD 3 = false) := by
  rw [forall_mem_statusWords]
  refine ⟨?_, ?_, ?_, ?_, ?_⟩ <;> decide

/-- Of the five words only 0 has neither BUSY nor DONE (R25). -/
theorem statusWords_clear : ∀ w ∈ statusWords, w.getLsbD 0 = false → w.getLsbD 1 = false → w = 0 := by
  rw [forall_mem_statusWords]
  decide

/-- Of the five words only 1 has BUSY (R25). -/
theorem statusWords_busy : ∀ w ∈ statusWords, w.getLsbD 0 = true ↔ w = 1 := by
  rw [forall_mem_statusWords]
  decide

/-- STATUS and the phase under the invariant: the started word in flight, and one of the other words in Idle (R25). -/
theorem status_of_machineInv {s : State} (h : MachineInv s) :
    s.status ∈ statusWords ∧ (s.status = 0x00000001 ↔ s.ph ≠ .idle) := by
  cases hph : s.ph with
  | idle =>
    have hword : s.status = 0x00000000 ∨ s.status = 0x0000000A ∨ s.status = 0x00000016 ∨ s.status = 0x00000026 := by
      obtain ⟨hstatus, _⟩ | ⟨_, _, _, hreport⟩ := (machineInv_of_idle hph).1 h
      · exact .inl hstatus
      · split at hreport
        · exact .inr (.inl hreport.1)
        · exact .inr (.inr (.inl hreport))
        · exact .inr (.inr (.inr hreport))
    rcases hword with hw | hw | hw | hw <;> rw [hw] <;> decide
  | start =>
    obtain ⟨hstatus, _⟩ := (machineInv_of_start hph).1 h
    rw [hstatus]
    decide
  | expLoop =>
    obtain ⟨hstatus, _⟩ := (machineInv_of_expLoop hph).1 h
    rw [hstatus]
    decide
  | divFinal =>
    obtain ⟨hstatus, _⟩ := (machineInv_of_divFinal hph).1 h
    rw [hstatus]
    decide

/-- BUSY is set exactly while a command is in flight (R25 (e)). -/
theorem busy_iff_of_machineInv {s : State} (h : MachineInv s) : s.busy = true ↔ s.ph ≠ .idle := by
  obtain ⟨hmem, hph⟩ := status_of_machineInv h
  exact (statusWords_busy s.status hmem).trans hph

/-- No access and no work of the Unit clears STATUS (R25). -/
theorem access_status_ne_zero (a : Access) {s : State} (hs : s.status ≠ 0) : (access a s).status ≠ 0 := by
  cases a with
  | read off size =>
    rw [access, memRead_eq]
    exact hs
  | write off size v =>
    rw [access]
    obtain ⟨_, hw⟩ | ⟨op, hw⟩ | ⟨_, hw⟩ | ⟨_, hw⟩ := memWrite_effects off size v s <;> rw [hw]
    · exact hs
    · exact latch_status_ne_zero op s
    · exact hs
    · exact hs

theorem status_ne_zero_of_works {s t : State} (hs : s.status ≠ 0) (h : Works s t) : t.status ≠ 0 := by
  obtain ⟨_, rfl⟩ | ⟨n, rfl⟩ | ⟨op, n, rfl⟩ := h
  · exact hs
  · exact (unitSteps_reports n s).status_ne_zero hs
  · exact (unitSteps_reports n (latch op s)).status_ne_zero (latch_status_ne_zero op s)

/-- Only a reset clears STATUS (R25 (d)). -/
theorem status_eq_zero_of_step {s t : State} (h : step s = .next t) (ht : t.status = 0) :
    s.status = 0 ∨ ∃ rest, s.agenda = .reset :: rest := by
  by_contra hno
  obtain ⟨hs, hreset⟩ := not_or.1 hno
  obtain ⟨rest, hag, _⟩ | ⟨a, rest, _, rfl⟩ | ⟨rest, hw⟩ := step_effects h
  · exact hreset ⟨rest, hag⟩
  · exact access_status_ne_zero a (s := { s with agenda := rest }) hs ht
  · exact status_ne_zero_of_works (s := { s with agenda := rest }) hs hw ht

/-! ### Counters and RES -/

theorem iterCount_le (op : Op) (a b : Elem) : iterCount op a b ≤ 256 := by
  have := bitlen_le b
  unfold iterCount
  split <;> (try split) <;> omega

theorem mulCount_le (op : Op) (a b : Elem) : mulCount op a b ≤ 512 := by
  have := bitlen_le b
  have := popcount_le b
  unfold mulCount
  split <;> (try split) <;> omega

theorem counts_le_of_engineInv {g x : Elem} {s : State} (h : EngineInv g x s) :
    s.itercnt.toNat ≤ 256 ∧ s.mulcnt.toNat ≤ 512 := by
  obtain ⟨_, _, _, _, hiter, hmul⟩ := h
  have := bitlen_le x
  have := popcount_le x
  omega

/-- The maxima of the counters under the invariant (R97). -/
theorem counts_le_of_machineInv {s : State} (h : MachineInv s) : s.itercnt.toNat ≤ 256 ∧ s.mulcnt.toNat ≤ 512 := by
  cases hph : s.ph with
  | idle =>
    obtain ⟨_, hi, hm⟩ | ⟨_, hi, hm, _⟩ := (machineInv_of_idle hph).1 h
    · simp [hi, hm]
    · rw [hi, hm]
      exact ⟨iterCount_le .., mulCount_le ..⟩
  | start =>
    obtain ⟨_, hi, hm⟩ := (machineInv_of_start hph).1 h
    simp [hi, hm]
  | expLoop =>
    obtain ⟨_, _, _, _, hinv⟩ := (machineInv_of_expLoop hph).1 h
    exact counts_le_of_engineInv hinv
  | divFinal =>
    obtain ⟨_, _, _, _, _, _, hinv⟩ := (machineInv_of_divFinal hph).1 h
    exact counts_le_of_engineInv hinv

/-- Under the invariant STATUS says that RES is valid only where RES holds a canonical result (R5, R21). -/
theorem res_lt_of_machineInv {s : State} (h : MachineInv s) (hv : s.rvalid = true) : s.res.toNat < Config.P := by
  obtain ⟨_, hstarted⟩ := status_of_machineInv h
  by_cases hph : s.ph = .idle
  · obtain ⟨hs, _⟩ | ⟨_, _, _, hreport⟩ := (machineInv_of_idle hph).1 h
    · rw [rvalid_of_status hs] at hv
      exact absurd hv (by decide)
    · split at hreport
      case h_1 r hr =>
        obtain ⟨_, hres⟩ := hreport
        exact hres ▸ fieldResult_lt hr
      all_goals
        rw [rvalid_of_status hreport] at hv
        exact absurd hv (by decide)
  · rw [rvalid_of_status (hstarted.2 hph)] at hv
    exact absurd hv (by decide)

theorem access_res (a : Access) (s : State) : (access a s).res = s.res := by
  cases a with
  | read off size => rw [access, memRead_eq]
  | write off size v =>
    rw [access]
    obtain ⟨_, hw⟩ | ⟨_, hw⟩ | ⟨_, hw⟩ | ⟨_, hw⟩ := memWrite_effects off size v s <;> rw [hw] <;> rfl

theorem res_of_works {s t : State} (h : Works s t) : t.res = s.res ∨ t.status = statusOk ∧ t.ph = .idle := by
  obtain ⟨_, rfl⟩ | ⟨n, rfl⟩ | ⟨op, n, rfl⟩ := h
  · exact .inl rfl
  · exact (unitSteps_reports n s).res
  · exact (unitSteps_reports n (latch op s)).res

theorem operands_of_works {s t : State} (h : Works s t) :
    t.opa = s.opa ∧ t.opb = s.opb ∧ t.opaW = s.opaW ∧ t.opbW = s.opbW := by
  obtain ⟨_, rfl⟩ | ⟨n, rfl⟩ | ⟨op, n, rfl⟩ := h
  · exact ⟨rfl, rfl, rfl, rfl⟩
  · obtain ⟨hopa, hopb, hopaW, hopbW, _⟩ := unitSteps_frame n s
    exact ⟨hopa, hopb, hopaW, hopbW⟩
  · obtain ⟨hopa, hopb, hopaW, hopbW, _⟩ := unitSteps_frame n (latch op s)
    exact ⟨hopa, hopb, hopaW, hopbW⟩

end Sys2Proof.Machine
end

section

open Sys2Proof Sys2Proof.Machine Sys2Proof.Safety

/-- Settles O9: a reset and a command start establish the invariant, every unit step keeps it, and nothing else that a
step does writes a register it speaks of. -/
theorem everyStepKeepsTheInvariant : Obligations.EveryStepKeepsTheInvariant :=
  fun _ _ hs h => machineInv_step hs h

/-- Settles O8: at launch the core is idle with STATUS and the counters 0. -/
theorem invariantHoldsAtReset : Obligations.InvariantHoldsAtReset := .inl ⟨rfl, rfl, rfl⟩

/-- Settles O10: each rule is read off the five words, and no step but a reset clears STATUS. -/
theorem statusWordObeysItsRules : Obligations.StatusWordObeysItsRules := by
  refine ⟨fun s h => ?rules, fun s t hs h hbusy hdone => ?cleared⟩
  case rules =>
    obtain ⟨hmem, _⟩ := status_of_machineInv h
    obtain ⟨ha, hb, hc, hd⟩ := statusWords_rules s.status hmem
    exact ⟨ha, hb, hc, hd, busy_iff_of_machineInv h, hmem⟩
  case cleared =>
    obtain ⟨hmem, _⟩ := status_of_machineInv (machineInv_step hs h)
    refine (status_eq_zero_of_step h (statusWords_clear t.status hmem hbusy hdone)).imp_left fun hs0 => ?_
    rw [busy_of_status hs0, done_of_status hs0]
    decide

/-- Settles O11: the counts are those of the report or of the engine's invariant, and a valid result is one that
`fieldResult` gives. -/
theorem countersNeverWrapAndResultsAreCanonical : Obligations.CountersNeverWrapAndResultsAreCanonical := by
  intro s h
  obtain ⟨hi, hm⟩ := counts_le_of_machineInv h
  exact ⟨hi, hm, res_lt_of_machineInv h⟩

/-- Settles O21: what is left of a step without reset and host write is reads and the Unit's work. -/
theorem onlyTheseStepsWriteOperandsAndResult : Obligations.OnlyTheseStepsWriteOperandsAndResult := by
  intro s t hs h hreset
  have hinv := machineInv_step hs h
  obtain ⟨rest, hag, _⟩ | ⟨a, rest, hag, rfl⟩ | ⟨rest, hw⟩ := step_effects h
  · exact absurd hag (hreset rest)
  · refine ⟨fun hwrite => ?_, .inl (access_res a _)⟩
    cases a with
    | read off size =>
      rw [access, memRead_eq]
      exact ⟨rfl, rfl, rfl, rfl⟩
    | write off size v => exact absurd hag (hwrite off size v rest)
  · refine ⟨fun _ => operands_of_works (s := { s with agenda := rest }) hw,
      (res_of_works hw).imp_right fun ⟨hstatus, hph⟩ => ?_⟩
    refine ⟨hstatus, hph, res_lt_of_machineInv hinv ?_⟩
    rw [rvalid_of_status hstatus]
    decide

end

section
/-! PROOF. The step of each kind of entry (R13, R41, R60, R107) and a completed command's report under it (R48, R92),
for the statements about single steps. -/

namespace Sys2Proof.Machine

open Sys2Proof.Safety

/-! ### The step of each kind of entry -/

theorem step_of_access {s : State} {a : Access} {rest : List Event} (hag : s.agenda = .access a :: rest)
    (hf : s.fault = none) : step s = .next (access a { s with agenda := rest }) := by
  simp only [step, nextEvent, hag]
  exact hostTurn_of_none hf

theorem step_of_unit {s : State} {rest : List Event} (hag : s.agenda = .unit :: rest) (hf : s.fault = none) :
    step s = .next (unitStep { s with agenda := rest }) := by
  simp only [step, nextEvent, hag]
  exact unitTurn_of_none hf

theorem step_of_reset {s : State} {rest : List Event} (hag : s.agenda = .reset :: rest) :
    step s = .next (hardReset { s with agenda := rest }) := by
  simp only [step, nextEvent, hag]

/-- With nothing to come the Unit has its turn (R120, R121). -/
theorem step_of_nil {s : State} (hag : s.agenda = []) (hf : s.fault = none) : step s = .next (unitStep s) := by
  simp only [step, nextEvent, hag]
  exact unitTurn_of_none hf

theorem step_of_command {s : State} {v : Word} {i : Instr} {rest : List Event} (hag : s.agenda = .command v :: rest)
    (hv : decode v = .ok i) : step s = exec i { s with agenda := rest } := by
  simp only [step, nextEvent, hag, hv]

theorem step_of_illegal_command {s : State} {v : Word} {rest : List Event} (hag : s.agenda = .command v :: rest)
    (hv : ∀ i, decode v ≠ .ok i) : step s = execIllegal { s with agenda := rest } := by
  simp only [step, nextEvent, hag]
  cases hd : decode v with
  | ok i => exact absurd hd (hv i)
  | error _ => rfl

/-! ### What is readable after a reset -/

/-- The state after a reset: STATUS, the counters and the marks are 0 (R107). -/
theorem resetState_of_reset {s t : State} (h : s = State.reset ∨ s = hardReset t) : ResetState s := by
  rcases h with rfl | rfl <;> exact ⟨rfl, rfl, rfl, rfl, rfl, rfl⟩

theorem not_marked_zero (k : Fin 8) : ¬ marked 0 k = true := by
  simp [marked]

theorem readAnswer_opa_fault_iff (k : Fin 8) (s : State) :
    readAnswer (BitVec.ofNat 8 (0x20 + 4 * k)) 4 s = .fault .unwrittenRead ↔ ¬ Written .opa k s := by
  rw [readAnswer_opa, Written]
  split <;> simp [*]

theorem readAnswer_opb_fault_iff (k : Fin 8) (s : State) :
    readAnswer (BitVec.ofNat 8 (0x40 + 4 * k)) 4 s = .fault .unwrittenRead ↔ ¬ Written .opb k s := by
  rw [readAnswer_opb, Written]
  split <;> simp [*]

theorem readAnswer_res_fault_iff (k : Fin 8) (s : State) :
    readAnswer (BitVec.ofNat 8 (0x60 + 4 * k)) 4 s = .fault .invalidResultRead ↔ s.rvalid = false := by
  rw [readAnswer_res]
  split <;> simp [*]

/-! ### What a report is read from -/

/-- `t` has the report of `s`: STATUS, RES, the counters and the phase (R62). -/
def SameReport (s t : State) : Prop :=
  t.status = s.status ∧ t.res = s.res ∧ t.itercnt = s.itercnt ∧ t.mulcnt = s.mulcnt ∧ t.ph = s.ph

theorem sameReport_memRead (off : Offset) (size : Nat) (s : State) : SameReport s (memRead off size s) := by
  rw [memRead_eq]
  exact ⟨rfl, rfl, rfl, rfl, rfl⟩

/-- A write that is not at CMD starts no command, so the report stands (R48). -/
theorem sameReport_memWrite {off : Offset} (size : Nat) (v : Word) (s : State) (h : regAt off ≠ .cmd) :
    SameReport s (memWrite off size v s) := by
  obtain hw | ⟨hcmd, _⟩ | ⟨_, _, hw⟩ | ⟨_, _, hw⟩ := memWrite_cases off size v s
  · exact hw ▸ ⟨rfl, rfl, rfl, rfl, rfl⟩
  · exact absurd hcmd h
  · exact hw ▸ ⟨rfl, rfl, rfl, rfl, rfl⟩
  · exact hw ▸ ⟨rfl, rfl, rfl, rfl, rfl⟩

/-- An idle core's unit step is none, so the report stands (R60). -/
theorem sameReport_unitStep {s : State} (h : s.ph = .idle) : SameReport s (unitStep s) := by
  rw [unitStep_of_idle h]
  exact ⟨rfl, rfl, rfl, rfl, rfl⟩

end Sys2Proof.Machine
end

section

open Sys2Proof Sys2Proof.Machine Sys2Proof.Safety

/-- Settles O4: the two outcomes of decoding a command entry. -/
theorem stepRunsTheDecodedCommand : Obligations.StepRunsTheDecodedCommand :=
  fun _ _ _ hag => ⟨fun _ => step_of_command hag, step_of_illegal_command hag⟩

/-- Settles O5: one rule per kind of entry. -/
theorem stepTakesTheNextTurn : Obligations.StepTakesTheNextTurn :=
  fun _ _ => ⟨fun _ => step_of_access, step_of_unit, step_of_reset, step_of_nil⟩

/-- Settles O6: after a reset no mark and no RVALID is set, and those are what a read of OPA, OPB and RES asks. -/
theorem onlyTheseAreReadableAfterReset : Obligations.OnlyTheseAreReadableAfterReset := by
  refine ⟨fun s t k h => ?afterReset,
    fun u k => ⟨readAnswer_opa_fault_iff k u, readAnswer_opb_fault_iff k u, readAnswer_res_fault_iff k u⟩⟩
  case afterReset =>
    obtain ⟨hopaW, hopbW, hstatus, hiter, hmul, _⟩ := resetState_of_reset h
    have hbusy : s.busy = false := busy_of_status hstatus
    refine ⟨?status, ?itercnt, ?mulcnt, readAnswer_pmod k s, ?opa, ?opb, ?res⟩
    case status => rw [readAnswer_status, hstatus]
    case itercnt => rw [readAnswer_itercnt_of_not_busy hbusy, hiter]
    case mulcnt => rw [readAnswer_mulcnt_of_not_busy hbusy, hmul]
    case opa =>
      rw [readAnswer_opa_fault_iff, Written, hopaW]
      exact not_marked_zero k
    case opb =>
      rw [readAnswer_opb_fault_iff, Written, hopbW]
      exact not_marked_zero k
    case res =>
      rw [readAnswer_res_fault_iff]
      exact rvalid_of_status hstatus

/-- Settles O7: the step is `hardReset` on the state without the entry, and each field is what it writes or keeps. -/
theorem resetAbortsTheCommandInFlight : Obligations.ResetAbortsTheCommandInFlight := by
  intro s rest hag
  refine ⟨_, step_of_reset hag, resetState_of_reset (.inr rfl), ⟨hardReset_ph _, hardReset_busy _⟩, hardReset_fault _,
    hardReset_agenda _, hardReset_replies _, ?_, ?_, ?_⟩
  · exact done_of_status (hardReset_status _)
  · exact err_of_status (hardReset_status _)
  · exact rvalid_of_status (hardReset_status _)

/-- Settles O44: what the four kinds of entry do on an idle core, each of which leaves the report. -/
theorem reportStandsUntilTheNextCommand : Obligations.ReportStandsUntilTheNextCommand := by
  intro s t rest hph h hev
  have hf : s.fault = none := by
    by_contra hne
    obtain ⟨r, hr⟩ := Option.ne_none_iff_exists'.1 hne
    obtain ⟨_, hag, _⟩ := step_of_fault_is_reset hr h
    simp [hag] at hev
  suffices hsame : SameReport s t by
    rw [SameReport, hph] at hsame
    exact hsame
  obtain hag | hag | ⟨off, size, hag⟩ | ⟨off, size, v, hoff, hag⟩ := hev
  · obtain rfl := Host.Outcome.next.inj ((step_of_nil hag hf).symm.trans h)
    exact sameReport_unitStep hph
  · obtain rfl := Host.Outcome.next.inj ((step_of_unit hag hf).symm.trans h)
    exact sameReport_unitStep (s := { s with agenda := rest }) hph
  · obtain rfl := Host.Outcome.next.inj ((step_of_access hag hf).symm.trans h)
    exact sameReport_memRead off size { s with agenda := rest }
  · obtain rfl := Host.Outcome.next.inj ((step_of_access hag hf).symm.trans h)
    exact sameReport_memWrite size v { s with agenda := rest } hoff

end

section
/-! PROOF. How many unit steps each command takes and what the last of them reports (R62, R119), and what the host can
read meanwhile (R28, R66), for the statements about a command run at once. -/

namespace Sys2Proof.Machine

open Sys2Proof.Safety

/-! ### The count of unit steps -/

theorem unitStepCount_inv_of_zero {a : Elem} (b : Elem) (h : a.toNat % Config.P = 0) :
    unitStepCount (.legal .inv) a b = 1 := if_pos h

theorem unitStepCount_inv_of_nonzero {a : Elem} (b : Elem) (h : a.toNat % Config.P ≠ 0) :
    unitStepCount (.legal .inv) a b = 258 := if_neg h

theorem unitStepCount_div_of_zero (a : Elem) {b : Elem} (h : b.toNat % Config.P = 0) :
    unitStepCount (.legal .div) a b = 1 := if_pos h

theorem unitStepCount_div_of_nonzero (a : Elem) {b : Elem} (h : b.toNat % Config.P ≠ 0) :
    unitStepCount (.legal .div) a b = 259 := if_neg h

theorem unitStepCount_le (op : Op) (a b : Elem) : unitStepCount op a b ≤ 259 := by
  have := bitlen_le b
  unfold unitStepCount
  split <;> (try split) <;> omega

/-- Before its last unit step a command is in flight (R119). -/
theorem unitSteps_latch_ph_ne_idle {op : Op} {n : Nat} {s : State} (h : n < unitStepCount op s.opa s.opb) :
    (unitSteps n (latch op s)).ph ≠ .idle := by
  obtain rfl | hpos := Nat.eq_zero_or_pos n
  · exact nofun
  have honeStep (h1 : unitStepCount op s.opa s.opb = 1) : (unitSteps n (latch op s)).ph ≠ .idle := by omega
  cases op with
  | illegal => exact honeStep rfl
  | legal i =>
    cases i with
    | add | sub | mul => exact honeStep rfl
    | exp =>
      rw [unitSteps_latch_exp_ph hpos (Nat.le_of_lt_succ h)]
      exact nofun
    | inv =>
      by_cases ha : s.opa.toNat % Config.P = 0
      · exact honeStep (unitStepCount_inv_of_zero _ ha)
      · rw [unitStepCount_inv_of_nonzero _ ha] at h
        rw [ph_of_fermatStart (unitStep_latch_inv ha) hpos (Nat.le_of_lt_succ h)]
        exact nofun
    | div =>
      by_cases hb : s.opb.toNat % Config.P = 0
      · exact honeStep (unitStepCount_div_of_zero _ hb)
      · rw [unitStepCount_div_of_nonzero _ hb] at h
        obtain rfl | hn := Nat.eq_or_lt_of_le (Nat.le_of_lt_succ h)
        · rw [unitSteps_latch_div_ph hb]
          exact nofun
        · rw [ph_of_fermatStart (unitStep_latch_div hb) hpos (Nat.le_of_lt_succ hn)]
          exact nofun

/-- The last unit step of a command leaves the unit idle (R62, R119). -/
theorem unitSteps_latch_ph_idle (op : Op) (s : State) :
    (unitSteps (unitStepCount op s.opa s.opb) (latch op s)).ph = .idle := by
  have hzero {i : Instr} (hz : InvertsZero i s.opa s.opb) : (unitSteps 1 (latch (.legal i) s)).ph = .idle := by
    rw [unitSteps_succ, unitStep_latch_of_invertsZero hz]
    rfl
  cases op with
  | illegal => rfl
  | legal i =>
    cases i with
    | add | sub | mul => rfl
    | exp =>
      obtain ⟨hph, _⟩ := unitSteps_latch_exp_reports s
      exact hph
    | inv =>
      by_cases ha : s.opa.toNat % Config.P = 0
      · rw [unitStepCount_inv_of_zero _ ha]
        exact hzero (.inl ⟨rfl, ha⟩)
      · rw [unitStepCount_inv_of_nonzero _ ha, unitSteps_latch_inv ha, completeOk_ph]
    | div =>
      by_cases hb : s.opb.toNat % Config.P = 0
      · rw [unitStepCount_div_of_zero _ hb]
        exact hzero (.inr ⟨rfl, hb⟩)
      · rw [unitStepCount_div_of_nonzero _ hb, unitSteps_latch_div hb, completeOk_ph]

/-- Unit steps after a command's last change nothing (R60, R104). -/
theorem unitSteps_latch_of_le {op : Op} {n : Nat} {s : State} (h : unitStepCount op s.opa s.opb ≤ n) :
    unitSteps n (latch op s) = unitSteps (unitStepCount op s.opa s.opb) (latch op s) := by
  obtain ⟨d, rfl⟩ := Nat.exists_eq_add_of_le h
  rw [unitSteps_add, unitSteps_of_idle d (unitSteps_latch_ph_idle op s)]

theorem unitSteps_latch_ph_idle_iff (op : Op) (n : Nat) (s : State) :
    (unitSteps n (latch op s)).ph = .idle ↔ unitStepCount op s.opa s.opb ≤ n := by
  constructor
  · intro hph
    by_contra hn
    exact unitSteps_latch_ph_ne_idle (Nat.lt_of_not_le hn) hph
  · intro hn
    rw [unitSteps_latch_of_le hn]
    exact unitSteps_latch_ph_idle op s

/-! ### What the last unit step reports -/

/-- A report rests on the operands that the command reads (R18, R19). -/
theorem reports_congr {op : Op} {a b a' b' : Elem} {s : State} (hA : op.readsA = true → a = a')
    (hB : op.readsB = true → b = b') (h : Reports op a b s) : Reports op a' b' s := by
  cases op with
  | illegal => exact h
  | legal i =>
    obtain rfl := hA (readsA_legal i)
    by_cases hi : i = .inv
    · subst hi
      exact h
    · obtain rfl := hB ((readsB_legal i).2 hi)
      exact h

/-- A command's last unit step reports its result, STATUS and counts: they are what the invariant says of the latches
(R62). -/
theorem unitSteps_latch_reports (op : Op) (s : State) :
    Reports op s.opa s.opb (unitSteps (unitStepCount op s.opa s.opb) (latch op s)) := by
  have hinv : MachineInv (unitSteps (unitStepCount op s.opa s.opb) (latch op s)) :=
    machineInv_unitSteps _ (machineInv_latch op s)
  have hstatus := (unitSteps_reports (unitStepCount op s.opa s.opb) (latch op s)).status_ne_zero
    (latch_status_ne_zero op s)
  obtain ⟨_, _, _, _, hlop, hla, hlb, _⟩ := unitSteps_frame (unitStepCount op s.opa s.opb) (latch op s)
  have hreport := ((machineInv_of_idle (unitSteps_latch_ph_idle op s)).1 hinv).resolve_left fun h => hstatus h.1
  rw [hlop, hla, hlb, latch_lop, latch_la, latch_lb] at hreport
  exact reports_congr (fun hA => if_pos hA) (fun hB => if_pos hB) hreport

/-! ### What the host can read -/

/-- A register of the window that no command writes: an operand word, PMOD, CMD or a reserved offset (R20, R40). -/
def NotWrittenByCommands (g : Reg) : Prop :=
  g ≠ .status ∧ g ≠ .itercnt ∧ g ≠ .mulcnt ∧ ∀ k, g ≠ .res k

/-- States with the same operand registers and marks answer the same where no command writes (R42). -/
theorem readReg_eq_of_operands {g : Reg} {s t : State} (hg : NotWrittenByCommands g)
    (h : t.opa = s.opa ∧ t.opb = s.opb ∧ t.opaW = s.opaW ∧ t.opbW = s.opbW) : readReg g t = readReg g s := by
  obtain ⟨hstatus, hiter, hmul, hres⟩ := hg
  obtain ⟨hopa, hopb, hopaW, hopbW⟩ := h
  cases g with
  | status => exact absurd rfl hstatus
  | itercnt => exact absurd rfl hiter
  | mulcnt => exact absurd rfl hmul
  | res k => exact absurd rfl (hres k)
  | opa k => rw [readReg, readReg, hopa, hopaW]
  | opb k => rw [readReg, readReg, hopb, hopbW]
  | cmd | pmod | reserved => rfl

theorem readAnswer_eq_of_operands {off : Offset} (size : Nat) {s t : State} (hg : NotWrittenByCommands (regAt off))
    (h : t.opa = s.opa ∧ t.opb = s.opb ∧ t.opaW = s.opaW ∧ t.opbW = s.opbW) :
    readAnswer off size t = readAnswer off size s := by
  rw [readAnswer, readAnswer, readReg_eq_of_operands hg h]

/-- While a command is in flight a read tells nothing of where the Unit is: STATUS stays, the counters are draws and RES
faults (R28, R32, R66). -/
theorem readAnswer_eq_of_started (off : Offset) (size : Nat) {s t : State} (hs : s.status = 0x00000001)
    (ht : t.status = 0x00000001) (h : t.opa = s.opa ∧ t.opb = s.opb ∧ t.opaW = s.opaW ∧ t.opbW = s.opbW) :
    readAnswer off size t = readAnswer off size s := by
  suffices hreg : readReg (regAt off) t = readReg (regAt off) s by rw [readAnswer, readAnswer, hreg]
  cases hg : regAt off with
  | status => rw [readReg, readReg, hs, ht]
  | itercnt => rw [readReg, readReg, busy_of_status hs, busy_of_status ht]; rfl
  | mulcnt => rw [readReg, readReg, busy_of_status hs, busy_of_status ht]; rfl
  | res k => rw [readReg, readReg, rvalid_of_status hs, rvalid_of_status ht]; rfl
  | cmd | opa | opb | pmod | reserved =>
    exact readReg_eq_of_operands ⟨nofun, nofun, nofun, nofun⟩ h

/-- Before a command's last unit step STATUS is the started word (R25, R66). -/
theorem unitSteps_latch_status {op : Op} {n : Nat} {s : State} (h : n < unitStepCount op s.opa s.opb) :
    (unitSteps n (latch op s)).status = 0x00000001 := by
  obtain ⟨_, hstarted⟩ := status_of_machineInv (machineInv_unitSteps n (machineInv_latch op s))
  exact hstarted.2 (unitSteps_latch_ph_ne_idle h)

theorem operands_unitSteps_latch (op : Op) (n : Nat) (s : State) :
    (unitSteps n (latch op s)).opa = s.opa ∧ (unitSteps n (latch op s)).opb = s.opb ∧
      (unitSteps n (latch op s)).opaW = s.opaW ∧ (unitSteps n (latch op s)).opbW = s.opbW :=
  operands_of_works (.inr (.inr ⟨op, n, rfl⟩))

/-- ADD, SUB and MUL take one step and leave the engine's registers (R68, R69, R71). -/
theorem engine_of_one_step_commands {i : Instr} (hi : i ∈ [Instr.add, .sub, .mul]) (s : State) :
    (unitSteps (unitStepCount (.legal i) s.opa s.opb) (latch (.legal i) s)).sq = s.sq ∧
      (unitSteps (unitStepCount (.legal i) s.opa s.opb) (latch (.legal i) s)).racc = s.racc ∧
      (unitSteps (unitStepCount (.legal i) s.opa s.opb) (latch (.legal i) s)).e = s.e := by
  cases i with
  | add | sub | mul => exact ⟨rfl, rfl, rfl⟩
  | inv | div | exp => simp at hi

end Sys2Proof.Machine
end

section

open Sys2Proof Sys2Proof.Machine Sys2Proof.Safety

/-- Settles O27: a ready CMD write latches, each command is in flight before its count and idle from it on, and the
invariant gives the report. -/
theorem commandsTakeTheseUnitSteps : Obligations.CommandsTakeTheseUnitSteps := by
  intro v s hs
  rw [commandWrite_of_ready hs]
  exact ⟨fun n => unitSteps_latch_ph_idle_iff _ n s, unitSteps_latch_reports _ s, unitStepCount_le ..⟩

/-- Settles O26: `exec` is the unit steps, and before the last of them STATUS is the started word, on which the other
answers rest. -/
theorem collapseAgreesWithUnitSteps : Obligations.CollapseAgreesWithUnitSteps := by
  intro i s hs
  rw [commandWrite_encode_of_ready hs]
  refine ⟨exec_of_ready hs, fun n hn k => ?_⟩
  have hstatus := unitSteps_latch_status hn
  have hbusy := busy_of_status hstatus
  exact ⟨(readAnswer_status _).trans (congrArg _ hstatus), readAnswer_itercnt_of_busy hbusy,
    readAnswer_mulcnt_of_busy hbusy, (readAnswer_res_fault_iff k _).2 (rvalid_of_status hstatus),
    fun off size => readAnswer_eq_of_started off size rfl hstatus (operands_unitSteps_latch _ n s)⟩

/-- Settles O20: a command turned away writes FAULT alone, and one that runs is its latches and unit steps, whose frame
is known. -/
theorem commandsLeaveTheRestUnchanged : Obligations.CommandsLeaveTheRestUnchanged := by
  intro i s t h
  obtain ⟨r, rfl⟩ | ⟨hs, rfl⟩ := exec_cases h
  case inl =>
    refine ⟨rfl, rfl, rfl, rfl, rfl, rfl, rfl, ?_, fun _ => ⟨rfl, rfl, rfl⟩, fun _ => rfl, fun _ => rfl,
      fun off size hres hstatus hiter hmul =>
        readAnswer_eq_of_operands size ⟨hstatus, hiter, hmul, hres⟩ ⟨rfl, rfl, rfl, rfl⟩⟩
    rintro q hq
    obtain rfl := Option.some.inj hq
    rfl
  case inr =>
    obtain ⟨hopa, hopb, hopaW, hopbW, _, _, hlb, hfault, hagenda, hreplies, hdraws⟩ :=
      unitSteps_frame (unitStepCount (.legal i) s.opa s.opb) (latch (.legal i) s)
    refine ⟨hopa, hopb, hopaW, hopbW, hagenda, hreplies, hdraws, ?noFault,
      fun hi => engine_of_one_step_commands hi s, ?res, ?lb, ?reads⟩
    case noFault =>
      intro r hr
      exact absurd (hr.symm.trans (hfault.trans hs.1)) (Option.some_ne_none r)
    case res =>
      exact fun hne => (unitSteps_reports _ _).res.resolve_right fun ⟨hok, _⟩ => hne hok
    case lb =>
      rintro rfl
      exact hlb
    case reads =>
      exact fun off size hres hstatus hiter hmul =>
        readAnswer_eq_of_operands size ⟨hstatus, hiter, hmul, hres⟩ ⟨hopa, hopb, hopaW, hopbW⟩

end

section
/-! PROOF. Runs: a host that does only what it may do at any time (R117, R122), a run with nothing more to come (R120,
R121), and the expansions of the host's wide statements and polls (R65), for the statements about runs. -/

namespace Sys2Proof.Machine

open Sys2Proof.Safety

/-! ### A host that does only what it may do at any time -/

theorem readAnswer_of_harmless {off : Offset} {size : Nat} (h : harmless (.access (.read off size)) = true)
    (s : State) (r : Fault) : readAnswer off size s ≠ .fault r := by
  simp only [harmless, Bool.and_eq_true] at h
  obtain ⟨hform, hreg⟩ := h
  rw [readAnswer, if_pos hform]
  cases hg : regAt off with
  | status | pmod => exact nofun
  | itercnt | mulcnt =>
    rw [readReg]
    split <;> exact nofun
  | cmd | opa | opb | res | reserved => simp [hg] at hreg

/-- A harmless access moves the host's side alone (R117, R122). -/
theorem access_of_harmless {a : Access} (h : harmless (.access a) = true) (s : State) :
    access a s = withHostSide (access a s) s := by
  cases a with
  | read off size =>
    rw [access]
    obtain ⟨_, _, hr⟩ | ⟨_, _, hr⟩ | ⟨r, hanswer, _⟩ := memRead_cases off size s
    · rw [hr]
      rfl
    · rw [hr]
      rfl
    · exact absurd hanswer (readAnswer_of_harmless h s r)
  | write off size v =>
    simp only [harmless, Bool.and_eq_true] at h
    obtain ⟨hform, hreg⟩ := h
    rw [access, memWrite, if_pos hform]
    cases hg : regAt off with
    | opa | opb => rfl
    | cmd | status | itercnt | mulcnt | res | pmod | reserved => simp [hg] at hreg

/-- No access changes what is still to come. -/
theorem access_agenda (a : Access) (s : State) : (access a s).agenda = s.agenda := by
  cases a with
  | read off size => rw [access, memRead_eq]
  | write off size v =>
    rw [access]
    obtain ⟨_, hw⟩ | ⟨_, hw⟩ | ⟨_, hw⟩ | ⟨_, hw⟩ := memWrite_effects off size v s <;> rw [hw] <;> rfl

/-- `t` is what `n` unit steps make of `s`, but for the host's side. -/
def UnitAdvanced (n : Nat) (s t : State) : Prop := t = withHostSide t (unitSteps n s)

theorem unitAdvanced_of_eq {n : Nat} {h s t : State} (ht : t = withHostSide h (unitSteps n s)) :
    UnitAdvanced n s t := by
  subst ht
  rfl

theorem UnitAdvanced.trans {m n : Nat} {s t u : State} (hst : UnitAdvanced m s t) (htu : UnitAdvanced n t u) :
    UnitAdvanced (m + n) s u := by
  have hunit : unitSteps n t = withHostSide t (unitSteps n (unitSteps m s)) := by
    conv_lhs => rw [hst]
    exact unitSteps_withHostSide n t _
  unfold UnitAdvanced at htu
  rw [hunit, ← unitSteps_add] at htu
  exact htu

theorem unitTurns_cons (ev : Event) (evs : List Event) :
    unitTurns (ev :: evs) = unitTurns [ev] + unitTurns evs := by
  cases ev with
  | unit => exact Nat.add_comm ..
  | access | command | reset => exact (Nat.zero_add _).symm

/-- A harmless entry is taken without a fault, and is one unit step or none. -/
theorem step_of_harmless {ev : Event} {rest : List Event} {s : State} (hev : harmless ev = true)
    (hf : s.fault = none) (hag : s.agenda = ev :: rest) :
    ∃ t, step s = .next t ∧ t.fault = none ∧ t.agenda = rest ∧ UnitAdvanced (unitTurns [ev]) s t := by
  cases ev with
  | command | reset => exact absurd hev Bool.false_ne_true
  | unit =>
    obtain ⟨_, _, _, _, _, _, _, hfault, hagenda, _⟩ := unitStep_frame { s with agenda := rest }
    exact ⟨_, step_of_unit hag hf, hfault.trans hf, hagenda,
      unitAdvanced_of_eq (unitSteps_withHostSide 1 { s with agenda := rest } s)⟩
  | access a =>
    have hmove := access_of_harmless hev { s with agenda := rest }
    refine ⟨_, step_of_access hag hf, ?_, access_agenda a _, hmove⟩
    exact (congrArg State.fault hmove).trans hf

/-- A run of harmless entries takes them all without a fault, and is as many unit steps as the Unit has turns. -/
theorem run_of_harmless {evs : List Event} {s : State} (hevs : ∀ ev ∈ evs, harmless ev = true) (hf : s.fault = none)
    (hag : s.agenda = evs) :
    ∃ t, core.run evs.length s = .next t ∧ t.agenda = [] ∧ UnitAdvanced (unitTurns evs) s t := by
  induction evs generalizing s with
  | nil => exact ⟨s, run_zero s, hag, rfl⟩
  | cons ev evs ih =>
    rw [List.forall_mem_cons] at hevs
    obtain ⟨t, hstep, htf, htag, hst⟩ := step_of_harmless hevs.1 hf hag
    obtain ⟨u, hrun, huag, htu⟩ := ih hevs.2 htf htag
    refine ⟨u, (run_succ _ hstep).trans hrun, huag, ?_⟩
    rw [unitTurns_cons]
    exact hst.trans htu

/-! ### A run with nothing more to come -/

/-- With nothing to come a run is unit steps (R120, R121). -/
theorem run_of_nil {s : State} (hf : s.fault = none) (hag : s.agenda = []) (n : Nat) :
    core.run n s = .next (unitSteps n s) := by
  induction n generalizing s with
  | zero => exact run_zero s
  | succ n ih =>
    obtain ⟨_, _, _, _, _, _, _, hfault, hagenda, _⟩ := unitStep_frame s
    rw [run_succ n (step_of_nil hag hf), ih (hfault.trans hf) (hagenda.trans hag), unitSteps_succ]

theorem exists_idle_of_divFinal {s : State} (h : s.ph = .divFinal) : ∃ n ≤ 1, (unitSteps n s).ph = .idle := by
  refine ⟨1, le_rfl, ?_⟩
  rw [unitSteps_succ, unitStep_of_divFinal h]
  rfl

/-- From the loop the exit comes after one step per bit left, and DIV's final product after it (R75, R79). -/
theorem exists_idle_of_expLoop {s : State} (hinv : MachineInv s) (h : s.ph = .expLoop) :
    ∃ n ≤ 258, (unitSteps n s).ph = .idle := by
  have hlen := bitlen_le s.e
  have hexit := unitSteps_to_exit h
  have hlop := iterate_lop (bitlen s.e) s
  rcases lop_of_machineInv_expLoop hinv h with hs | hs | hs
  · rw [expExit_of_exp (hlop.trans hs)] at hexit
    exact ⟨bitlen s.e + 1, by omega, hexit ▸ rfl⟩
  · rw [expExit_of_inv (hlop.trans hs)] at hexit
    exact ⟨bitlen s.e + 1, by omega, hexit ▸ rfl⟩
  · rw [expExit_of_div (hlop.trans hs)] at hexit
    obtain ⟨n, hn, hidle⟩ := exists_idle_of_divFinal (s := unitSteps (bitlen s.e + 1) s) (hexit ▸ rfl)
    refine ⟨bitlen s.e + 1 + n, by omega, ?_⟩
    rwa [unitSteps_add]

/-- From every state that meets the invariant the Unit is idle after at most 259 steps (R119, R120). -/
theorem exists_idle {s : State} (hinv : MachineInv s) : ∃ n ≤ 259, (unitSteps n s).ph = .idle := by
  cases hph : s.ph with
  | idle => exact ⟨0, by omega, hph⟩
  | divFinal =>
    obtain ⟨n, hn, hidle⟩ := exists_idle_of_divFinal hph
    exact ⟨n, by omega, hidle⟩
  | expLoop =>
    obtain ⟨n, hn, hidle⟩ := exists_idle_of_expLoop hinv hph
    exact ⟨n, by omega, hidle⟩
  | start =>
    have hstart : (unitStep s).ph = .idle ∨ (unitStep s).ph = .expLoop := by
      rw [unitStep_of_start hph]
      exact startStep_ph s
    obtain hidle | hloop := hstart
    · exact ⟨1, by omega, hidle⟩
    · obtain ⟨n, hn, hidle⟩ := exists_idle_of_expLoop (machineInv_unitStep hinv) hloop
      exact ⟨n + 1, by omega, hidle⟩

/-! ### Reads and writes of whole registers -/

theorem mem_eachWord (k : Fin 8) : k ∈ eachWord := by decide +revert

/-- A host write of one word of either operand register (R41). -/
def writeOperand : OperandReg → Fin 8 → Word → State → State
  | .opa => writeOpa
  | .opb => writeOpb

/-- The step that takes an access placed before the rest of the agenda. -/
theorem step_access_cons (a : Access) (rest : List Event) {s : State} (hf : s.fault = none) :
    step { s with agenda := .access a :: rest } = .next (access a { s with agenda := rest }) :=
  step_of_access (s := { s with agenda := .access a :: rest }) rfl hf

theorem step_wr_cons (r : OperandReg) (k : Fin 8) (v : Word) (rest : List Event) {s : State} (hf : s.fault = none) :
    step { s with agenda := wr r k v :: rest } = .next (writeOperand r k v { s with agenda := rest }) := by
  refine (step_access_cons _ rest hf).trans (congrArg _ ?_)
  cases r with
  | opa => exact memWrite_opa k v _
  | opb => exact memWrite_opb k v _

/-- A run over writes of words of `x` makes them in their order (R64, R65). -/
theorem run_of_wr (r : OperandReg) (x : Elem) (ks : List (Fin 8)) (rest : List Event) {s : State}
    (hf : s.fault = none) :
    core.run ks.length { s with agenda := ks.map (fun k => wr r k (wordOf x k)) ++ rest } =
      .next (ks.foldl (fun t k => writeOperand r k (wordOf x k) t) { s with agenda := rest }) := by
  induction ks generalizing s with
  | nil => rfl
  | cons k ks ih =>
    refine (run_succ _ (step_wr_cons r k _ _ hf)).trans ?_
    cases r with
    | opa => exact ih (s := writeOpa k (wordOf x k) s) hf
    | opb => exact ih (s := writeOpb k (wordOf x k) s) hf

/-- All eight words written are all eight marks set (R22). -/
theorem setMarks_eachWord (m : BitVec 8) : setMarks eachWord m = 0xFF :=
  eq_of_beq ((allMarked_iff _).2 fun k => marked_setMarks_of_mem (mem_eachWord k) m)

theorem memRead_of_value {off : Offset} {size : Nat} {v : Word} {s : State} (h : readAnswer off size s = .value v) :
    memRead off size s = { s with replies := v :: s.replies } := by
  rw [memRead, h]

/-- A run over reads that answer with values leaves those words with the host, the last read the newest (R42, R64). -/
theorem run_of_reads {α : Type} (off : α → Offset) (v : α → Word) (ks : List α) (rest : List Event) {s : State}
    (hf : s.fault = none) (hread : ∀ k, readAnswer (off k) 4 s = .value (v k)) :
    core.run ks.length { s with agenda := ks.map (fun k => .access (.read (off k) 4)) ++ rest } =
      .next { s with agenda := rest, replies := (ks.map v).reverse ++ s.replies } := by
  induction ks generalizing s with
  | nil => rfl
  | cons k ks ih =>
    have hstep : step { s with agenda := (k :: ks).map (fun k => .access (.read (off k) 4)) ++ rest } =
        .next { s with
          agenda := ks.map (fun k => .access (.read (off k) 4)) ++ rest, replies := v k :: s.replies } :=
      (step_access_cons _ _ hf).trans (congrArg _ (memRead_of_value (hread k)))
    refine (run_succ _ hstep).trans ((ih (s := { s with replies := v k :: s.replies }) hf hread).trans ?_)
    rw [List.map_cons, List.reverse_cons, List.append_assoc, List.singleton_append]

theorem extractLsb'_append_wordOf (x : Elem) (len : Nat) {lo : Nat} {k : Fin 8} (h : lo = 32 * k.val + 32) :
    x.extractLsb' lo len ++ wordOf x k = x.extractLsb' (32 * k.val) (len + 32) :=
  BitVec.extractLsb'_append_extractLsb'_eq_extractLsb' h

/-- A register is made again of its eight words, joined from the highest down (R43, R65). -/
theorem elemOfWords_wordOf (x : Elem) :
    elemOfWords (wordOf x 0) (wordOf x 1) (wordOf x 2) (wordOf x 3) (wordOf x 4) (wordOf x 5) (wordOf x 6)
      (wordOf x 7) = x := by
  have hhigh : wordOf x 7 = x.extractLsb' 224 32 := rfl
  rw [elemOfWords, hhigh, extractLsb'_append_wordOf, extractLsb'_append_wordOf, extractLsb'_append_wordOf,
    extractLsb'_append_wordOf, extractLsb'_append_wordOf, extractLsb'_append_wordOf, extractLsb'_append_wordOf]
  · exact BitVec.extractLsb'_eq_self
  all_goals rfl

/-! ### The observation -/

/-- What is observed rests on STATUS, the counters, the marks, the host's variables, RES where it is valid and the
written words (R121). -/
theorem observe_congr {s t : State} {names names' : List Var} (hstatus : s.status = t.status)
    (hiter : s.itercnt = t.itercnt) (hmul : s.mulcnt = t.mulcnt) (hopaW : s.opaW = t.opaW) (hopbW : s.opbW = t.opbW)
    (hvars : hostVars names s.replies = hostVars names' t.replies) (hres : s.rvalid = true → s.res = t.res)
    (hopa : ∀ k, Written .opa k s → wordOf s.opa k = wordOf t.opa k)
    (hopb : ∀ k, Written .opb k s → wordOf s.opb k = wordOf t.opb k) : observe names s = observe names' t := by
  have hrvalid : s.rvalid = t.rvalid := rvalid_of_status hstatus
  simp only [observe, Observation.mk.injEq]
  refine ⟨hstatus, hiter, hmul, ?res, ?opa, ?opb, hvars⟩
  case res =>
    rw [← hrvalid]
    split
    · exact congrArg some (hres ‹_›)
    · rfl
  case opa =>
    refine List.map_congr_left fun k _ => ?_
    rw [← hopaW]
    split
    · exact congrArg some (hopa k ‹_›)
    · rfl
  case opb =>
    refine List.map_congr_left fun k _ => ?_
    rw [← hopbW]
    split
    · exact congrArg some (hopb k ‹_›)
    · rfl

/-- No word of an operand register without marks is observed (R121). -/
theorem observed_words_of_no_mark (x : Elem) :
    (eachWord.map fun k => if marked 0 k = true then some (wordOf x k) else none) = List.replicate 8 none :=
  List.map_congr_left fun k _ => if_neg (not_marked_zero k)

/-- Reads into one variable leave there the word of the last: the others are read over (R64). -/
theorem hostVars_replicate (n : Nat) (x : Var) (v : Word) (names : List Var) (words : List Word) :
    hostVars (List.replicate (n + 1) x ++ names) (List.replicate (n + 1) v ++ words) =
      hostVars (x :: names) (v :: words) := by
  induction n with
  | zero => rfl
  | succ n ih => exact (congrArg (assign x v) ih).trans (assign_assign x v v _)

/-- A run over polls leaves the word of STATUS once per poll (R64, R65). -/
theorem run_of_wait (n : Nat) {s : State} (hf : s.fault = none) :
    core.run n { s with agenda := wait n } =
      .next { s with agenda := [], replies := List.replicate n s.status ++ s.replies } := by
  have hrun := run_of_reads (fun _ : Unit => 0x04) (fun _ => s.status) (List.replicate n ()) [] hf
    fun _ => readAnswer_status s
  simpa [wait, rdStatus] using hrun

end Sys2Proof.Machine
end

section

open Sys2Proof Sys2Proof.Machine Sys2Proof.Safety

/-- Settles O28: the CMD write latches, the host's harmless accesses move its own side alone, and the Unit's turns are
the command's unit steps, after which it rests. -/
theorem everyInterleavingGivesTheSameReport : Obligations.EveryInterleavingGivesTheSameReport := by
  intro i s u evs hs hexec hevs hturns
  obtain rfl := Host.Outcome.next.inj ((exec_of_ready hs).symm.trans hexec)
  have hcmd : commandWrite (encode i) { s with agenda := evs } = latch (.legal i) { s with agenda := evs } :=
    commandWrite_encode_of_ready hs
  have hstep : step { s with agenda := mnemonic i :: evs } = .next (latch (.legal i) { s with agenda := evs }) :=
    (step_access_cons _ evs hs.1).trans (congrArg _ hcmd)
  obtain ⟨t, hrun, hag, ht⟩ := run_of_harmless (s := latch (.legal i) { s with agenda := evs }) hevs hs.1 rfl
  have hsteps : unitSteps (unitTurns evs) (latch (.legal i) { s with agenda := evs }) =
      withHostSide { s with agenda := evs }
        (unitSteps (unitStepCount (.legal i) s.opa s.opb) (latch (.legal i) s)) := by
    rw [unitSteps_latch_of_le (s := { s with agenda := evs }) hturns]
    exact unitSteps_withHostSide _ { s with agenda := evs } (latch (.legal i) s)
  obtain ⟨_, _, _, _, _, _, _, hfault, _⟩ :=
    unitSteps_frame (unitStepCount (.legal i) s.opa s.opb) (latch (.legal i) s)
  unfold UnitAdvanced at ht
  rw [hsteps] at ht
  refine ⟨t, (run_succ _ hstep).trans hrun, hag, ?_⟩
  rw [ht]
  exact ⟨hfault.trans hs.1, unitSteps_latch_ph_idle _ s, rfl, rfl, rfl, rfl⟩

/-- Settles O29: the run is unit steps, and the phase bounds how many are left. -/
theorem everyCommandCompletes : Obligations.EveryCommandCompletes := by
  intro s hinv hf hag
  obtain ⟨n, hn, hidle⟩ := exists_idle hinv
  obtain ⟨_, _, _, _, _, _, _, hfault, hagenda, _⟩ := unitSteps_frame n s
  exact ⟨n, hn, _, run_of_nil hf hag n, hagenda.trans hag, hfault.trans hf, hidle⟩

/-- Settles O39: the eight writes make every word and every mark, and the eight reads answer the words of RES. -/
theorem wideStatementsMoveAWholeRegister : Obligations.WideStatementsMoveAWholeRegister := by
  refine ⟨fun s x rest hf => ⟨?opa, ?opb, ?res⟩, elemOfWords_wordOf⟩
  case opa =>
    refine (run_of_wr .opa x eachWord rest hf).trans (congrArg _ ((foldl_writeOpa x eachWord _).trans ?_))
    rw [setWords_of_forall_mem x mem_eachWord, setMarks_eachWord]
  case opb =>
    refine (run_of_wr .opb x eachWord rest hf).trans (congrArg _ ((foldl_writeOpb x eachWord _).trans ?_))
    rw [setWords_of_forall_mem x mem_eachWord, setMarks_eachWord]
  case res =>
    intro hv
    exact run_of_reads _ _ eachWord rest hf fun k => (readAnswer_res k s).trans (if_pos hv)

/-- Settles O45: after a reset no mark and no RVALID is set, and what is observed rests on the defined parts alone. -/
theorem observationShowsOnlyWhatIsDefined : Obligations.ObservationShowsOnlyWhatIsDefined := by
  refine ⟨fun s names => ?reset, fun s t names => observe_congr⟩
  case reset =>
    have hrvalid : (hardReset s).rvalid = false := rvalid_of_status (hardReset_status s)
    simp only [observe, hrvalid, Observation.mk.injEq]
    exact ⟨rfl, rfl, rfl, rfl, observed_words_of_no_mark _, observed_words_of_no_mark _, rfl⟩

/-- Settles O48: each poll leaves the word of STATUS with the host, and all but the last are read over. -/
theorem observationDoesNotTellThePolls : Obligations.ObservationDoesNotTellThePolls := by
  refine ⟨fun s polls x names hf _ => ⟨_, run_of_wait (polls + 1) hf, rfl, hf, ?observed⟩, fun x v names words =>
    ⟨assign_lookup_same x v _, fun y hy => assign_lookup_other v _ hy⟩⟩
  case observed =>
    exact observe_congr rfl rfl rfl rfl rfl (hostVars_replicate polls x s.status names s.replies) (fun _ => rfl)
      (fun _ _ => rfl) fun _ _ => rfl

end

section
/-! PROOF. The engine's run by its base and exponent (R76, R79), and `bitlen` and `popcount` by their numbers (R11),
for the statements about the engine. -/

namespace Sys2Proof.Machine

open Sys2Proof.Safety

/-! ### The loop after n iterations -/

/-- The engine's invariant after `n` iterations, with ITERCNT and E known from `n` (R76). -/
theorem engineInv_after {g x : Elem} {t : State} {n : Nat} (h : EngineInv g x t) (hn : n ≤ bitlen x)
    (hlen : bitlen t.e = bitlen x - n) :
    (t.racc.toNat * t.sq.toNat ^ t.e.toNat) % Config.P = (g.toNat % Config.P) ^ x.toNat % Config.P ∧
    t.racc.toNat < Config.P ∧ t.sq.toNat < Config.P ∧
    t.itercnt.toNat = n ∧ t.e = x >>> n ∧
    (t.e = 0 ↔ n = bitlen x) ∧
    (t.e = 0 → t.racc.toNat = g.toNat ^ x.toNat % Config.P) := by
  have hexit (he : t.e = 0) : t.racc.toNat = g.toNat ^ x.toNat % Config.P := (engineInv_exit h he).1
  obtain ⟨hsq, hracc, hpow, hshift, hiter, _⟩ := h
  have hcount : t.itercnt.toNat = n := by omega
  refine ⟨hpow, hracc, hsq, hcount, hcount ▸ hshift, ?_, hexit⟩
  rw [← bitlen_eq_zero_iff]
  omega

/-! ### The engine does not read MULCNT -/

/-- An iteration reads MULCNT for its own next value alone (R74). -/
theorem expIterate_of_mulcnt (m : Word) (s : State) :
    { expIterate { s with mulcnt := m } with mulcnt := (expIterate s).mulcnt } = expIterate s := by
  rw [expIterate_eq, expIterate_eq]

/-- Iterations from two states that differ in MULCNT alone differ there alone. -/
theorem iterate_of_mulcnt (n : Nat) (m : Word) (s : State) :
    { expIterate^[n] { s with mulcnt := m } with mulcnt := (expIterate^[n] s).mulcnt } = expIterate^[n] s := by
  induction n with
  | zero => rfl
  | succ n ih =>
    rw [Function.iterate_succ_apply', Function.iterate_succ_apply']
    have hstep := expIterate_of_mulcnt (expIterate^[n] { s with mulcnt := m }).mulcnt (expIterate^[n] s)
    rw [← ih] at hstep ⊢
    exact hstep

/-! ### `bitlen` and `popcount` -/

theorem bitlenBelow_zero (f : Nat) : bitlenBelow f 0 = 0 := by
  cases f <;> rfl

/-- A number has no more set bits than bits (R11). -/
theorem popcountBelow_le_bitlenBelow (f n : Nat) : popcountBelow f n ≤ bitlenBelow f n := by
  induction f generalizing n with
  | zero => exact le_rfl
  | succ f ih =>
    rw [popcountBelow, bitlenBelow]
    split
    case isTrue h0 =>
      subst h0
      simpa [bitlenBelow_zero] using ih 0
    case isFalse h0 =>
      have hhalf := ih (n / 2)
      omega

theorem popcount_le_bitlen (x : Elem) : popcount x ≤ bitlen x := popcountBelow_le_bitlenBelow _ _

/-- The length is the number of bits needed (R11). -/
theorem bitlenBelow_le_iff {f m : Nat} (hm : m < 2 ^ f) (n : Nat) : bitlenBelow f m ≤ n ↔ m < 2 ^ n := by
  induction f generalizing m n with
  | zero =>
    obtain rfl : m = 0 := by omega
    exact iff_of_true (Nat.zero_le n) (Nat.two_pow_pos n)
  | succ f ih =>
    rw [bitlenBelow]
    split
    case isTrue h0 =>
      subst h0
      exact iff_of_true (Nat.zero_le n) (Nat.two_pow_pos n)
    case isFalse h0 =>
      cases n with
      | zero => omega
      | succ n =>
        have hhalf := ih (m := m / 2) (by omega) n
        omega

theorem bitlen_le_iff (x : Elem) (n : Nat) : bitlen x ≤ n ↔ x.toNat < 2 ^ n := bitlenBelow_le_iff x.isLt n

end Sys2Proof.Machine
end

section

open Sys2Proof Sys2Proof.Machine Sys2Proof.Safety

/-- Settles O22: ExpInit establishes the engine's invariant and every iteration keeps it; its part that counts
multiplications asks for a MULCNT of 0, and nothing else rests on MULCNT. -/
theorem engineLoopInvariant : Obligations.EngineLoopInvariant := by
  intro g x s n hi hn
  have hinit : EngineInv g x (expInit g x { s with mulcnt := 0 }) := engineInv_expInit hi rfl
  have hloop := engineInv_after (engineInv_iterate hinit hn) hn (bitlen_iterate_e n _)
  have hsame := iterate_of_mulcnt n 0 (expInit g x s)
  rw [← hsame]
  exact hloop

/-- Settles O23: the engine's invariant at the exit gives the counts, and each iteration takes one bit. -/
theorem engineCountsItsOperations : Obligations.EngineCountsItsOperations := by
  refine ⟨fun g x s hi hm => ?counts, fun x => ⟨bitlen_le x, popcount_le x, popcount_le_bitlen x⟩, bitlen_le_iff,
    by decide +kernel, by decide +kernel⟩
  case counts =>
    have hexit : (expIterate^[bitlen x] (expInit g x s)).e = 0 := iterate_bitlen_e (expInit g x s)
    obtain ⟨_, hiter, hmul⟩ := engineInv_exit (engineInv_iterate (engineInv_expInit hi hm) le_rfl) hexit
    exact ⟨hiter, hmul, hexit, fun n hn => iterate_e_ne_zero hn⟩

end

section
/-! PROOF. The laws of the power and of the inverse modulo P (R78, R86), for the statements about the operations'
laws. -/

namespace Sys2Proof.Machine

open Sys2Proof.Safety

/-! ### The laws of the power -/

/-- `exp(a, m + n) = mul(exp(a, m), exp(a, n))` where the sum is an exponent (R78). -/
theorem powMod_add (a : Elem) {m n : Elem} (h : m.toNat + n.toNat < 2 ^ 256) :
    powMod a (m + n) = mulMod (powMod a m) (powMod a n) := by
  have hsum : (m + n).toNat = m.toNat + n.toNat := by
    rw [BitVec.toNat_add]
    exact Nat.mod_eq_of_lt h
  apply BitVec.eq_of_toNat_eq
  rw [powMod_toNat, mulMod_toNat, powMod_toNat, powMod_toNat, hsum, pow_add, ← Nat.mul_mod]

/-- Fermat's exponent with its last factor: `exp(a, P − 1) = mul(a, inv(a))` (R14). -/
theorem powMod_pred_P (a : Elem) : powMod a (BitVec.ofNat 256 (Config.P - 1)) = mulMod a (invMod a) := by
  have hexp : BitVec.ofNat 256 (Config.P - 1) = 1 + fermatExponent := by decide
  have hfit : (1 : Elem).toNat + fermatExponent.toNat < 2 ^ 256 := by decide
  rw [hexp, powMod_add a hfit, powMod_one]
  apply BitVec.eq_of_toNat_eq
  rw [mulMod_toNat, mulMod_toNat, reduce_toNat, Nat.mod_mul_mod]
  rfl

/-! ### The law of the quotient -/

/-- `mul(div(a, b), b) = a mod P` (R86). -/
theorem mulMod_mulMod_invMod (a : Elem) {b : Elem} (hb : b.toNat % Config.P ≠ 0) :
    mulMod (mulMod a (invMod b)) b = reduce a.toNat := by
  apply BitVec.eq_of_toNat_eq
  rw [mulMod_toNat, mulMod_toNat, reduce_toNat]
  calc (a.toNat * (invMod b).toNat % Config.P) * b.toNat
      ≡ a.toNat * (invMod b).toNat * b.toNat [MOD Config.P] := (Nat.mod_modEq _ _).mul_right _
    _ = a.toNat * (b.toNat * (invMod b).toNat) := by rw [Nat.mul_assoc, Nat.mul_comm (invMod b).toNat]
    _ ≡ a.toNat * 1 [MOD Config.P] := (mul_invMod_modEq_one hb).mul_left _
    _ = a.toNat := Nat.mul_one _

end Sys2Proof.Machine
end

section

open Sys2Proof Sys2Proof.Machine Sys2Proof.Safety

/-- Settles O46: EXP computes `powMod`, and each law is one of `powMod`; the last is a power of a multiple of P. -/
theorem exponentLawsHold : Obligations.ExponentLawsHold := by
  simp only [Obligations.ExponentLawsHold, computes_exp_iff, computes_mul_iff]
  refine ⟨powMod_zero, powMod_one, fun a m n h => ⟨_, _, _, rfl, rfl, rfl, powMod_add a h⟩, fun a ha => ?_, ?_⟩
  · rw [powMod_pred_P, mulMod_invMod_self ha]
  · exact powMod_of_dvd pmod_toNat.symm.dvd (by decide)

/-- Settles O47: INV computes `invMod` and DIV `mulMod` by it, so the laws are Fermat's theorem on the values. -/
theorem inverseAndDivisionLawsHold : Obligations.InverseAndDivisionLawsHold := by
  have hzeroP : (0 : Elem).toNat % Config.P = 0 ∧ (BitVec.ofNat 256 Config.P).toNat % Config.P = 0 := by decide
  refine ⟨?inverse, ?zero, ?quotient, ?composition, ?counts⟩
  case inverse =>
    exact fun a b ha => ⟨_, computes_inv ha rfl b, (computes_mul_iff ..).2 (mulMod_invMod_self ha)⟩
  case zero =>
    exact fun a b => ⟨dividesByZero_inv hzeroP.1 b, dividesByZero_inv hzeroP.2 b, dividesByZero_div a hzeroP.1,
      dividesByZero_div a hzeroP.2⟩
  case quotient =>
    exact fun a b hb => ⟨_, computes_div hb rfl, (computes_mul_iff ..).2 (mulMod_mulMod_invMod a hb)⟩
  case composition =>
    exact fun a b c hb => ⟨_, _, computes_inv hb rfl c, (computes_mul_iff ..).2 rfl, computes_div hb rfl⟩
  case counts =>
    intro s t hs hb h
    obtain rfl := Host.Outcome.next.inj ((exec_div_of_nonzero hs hb).symm.trans h)
    exact unitSteps_latch_div_counts hb

end

section
/-! PROOF. The window as a byte-addressed platform sees it (R38, R44), and the accesses that set a model fault (R94,
R112 to R116), for the statements about the window's duties and bytes. -/

namespace Sys2Proof.Machine

open Sys2Proof.Safety

/-! ### Bytes -/

theorem windowOffset_base_add {n : Nat} (h : n < 256) : windowOffset (Config.base + n) = some (BitVec.ofNat 8 n) := by
  rw [windowOffset, if_pos (by omega), Nat.add_sub_cancel_left]

/-- Byte `m mod 4` of word `m / 4` is byte `m` of the register (R43, R44). -/
theorem byteOf_wordOf (x : Elem) (m : Fin 32) {k : Fin 8} {j : Fin 4} (hk : k.val = m.val / 4)
    (hj : j.val = m.val % 4) : byteOf (wordOf x k) j = x.extractLsb' (8 * m) 8 := by
  apply BitVec.eq_of_getLsbD_eq
  intro i hi
  have hbit : 32 * k.val + (8 * j.val + i) = 8 * m.val + i := by omega
  rw [byteOf, BitVec.getLsbD_extractLsb', wordOf_getLsbD x k (by omega), hbit, BitVec.getLsbD_extractLsb']

/-- Where the eight words at `b` read as those of `x`, byte `m` from `b` on is byte `m` of `x` (R44). -/
theorem platformByte_of_words {s : State} {x : Elem} {b : Nat} (hb : b % 4 = 0) (hfit : b + 32 ≤ 256)
    (h : ∀ k : Fin 8, readAnswer (BitVec.ofNat 8 (b + 4 * k)) 4 s = .value (wordOf x k)) (m : Fin 32) :
    platformByte s (Config.base + b + m) = some (x.extractLsb' (8 * m) 8) := by
  have hoffset : (BitVec.ofNat 8 (b + m.val)).toNat = b + m.val := by
    rw [BitVec.toNat_ofNat]
    omega
  have hword : (b + m.val) / 4 * 4 = b + 4 * (m.val / 4) := by omega
  have hread := h ⟨m.val / 4, by omega⟩
  have hbyte : (Fin.ofNat 4 (b + m.val)).val = m.val % 4 := by
    rw [Fin.val_ofNat]
    omega
  rw [platformByte, Nat.add_assoc, windowOffset_base_add (by omega)]
  dsimp only
  rw [hoffset, hword, hread]
  exact congrArg some (byteOf_wordOf x m rfl hbyte)

/-! ### Accesses that set a fault -/

theorem memRead_fault_iff (off : Offset) (size : Nat) {s : State} (hf : s.fault = none) :
    (memRead off size s).fault = none ↔ ∀ r, readAnswer off size s ≠ .fault r := by
  obtain ⟨v, ha, h⟩ | ⟨ha, _, h⟩ | ⟨r, ha, h⟩ := memRead_cases off size s
  · rw [h, ha]
    exact iff_of_true hf nofun
  · rw [h, ha]
    exact iff_of_true hf nofun
  · rw [h, ha]
    exact iff_of_false (raiseFault_fault_ne_none r s) fun hno => hno r rfl

/-- A read answers without a fault exactly when it keeps its duties (R94, R112, R114, R115). -/
theorem read_fault_iff_dutyKept (off : Offset) (size : Nat) {s : State} (hf : s.fault = none) :
    (access (.read off size) s).fault = none ↔ DutyKept (.read off size) s := by
  rw [access, memRead_fault_iff off size hf, DutyKept]
  by_cases hform : (Access.read off size).wellFormed = true
  case neg =>
    rw [readAnswer, if_neg hform]
    exact iff_of_false (fun hno => hno _ rfl) fun ⟨hform', _⟩ => hform hform'
  case pos =>
    rw [readAnswer, if_pos hform]
    cases hg : regAt off with
    | status | pmod => simp [readReg, listed, hform, hg]
    | itercnt | mulcnt => cases hb : s.busy <;> simp [readReg, listed, hform, hg, hb]
    | opa k => cases hm : marked s.opaW k <;> simp [readReg, listed, Written, hform, hg, hm]
    | opb k => cases hm : marked s.opbW k <;> simp [readReg, listed, Written, hform, hg, hm]
    | res k => cases hv : s.rvalid <;> simp [readReg, listed, hform, hg, hv]
    | cmd | reserved => simp [readReg, listed, hg]

/-- A CMD write sets no fault exactly when the core is idle and the operands are written (R59, R113, R115). -/
theorem commandWrite_fault_iff (v : Word) {s : State} (hf : s.fault = none) :
    (commandWrite v s).fault = none ↔ s.busy = false ∧ OperandsWritten (Op.ofWord v) s := by
  rw [← startFault_eq_none_iff, commandWrite]
  obtain ⟨r, hcheck, h⟩ | ⟨hcheck, h⟩ := startCommand_cases (Op.ofWord v) s
  · rw [h, hcheck]
    exact iff_of_false (raiseFault_fault_ne_none r s) (Option.some_ne_none r)
  · rw [h, hcheck]
    exact iff_of_true hf rfl

/-- A write takes effect without a fault exactly when it keeps its duties (R93, R112, R113, R115). -/
theorem write_fault_iff_dutyKept (off : Offset) (size : Nat) (v : Word) {s : State} (hf : s.fault = none) :
    (access (.write off size v) s).fault = none ↔ DutyKept (.write off size v) s := by
  rw [access, DutyKept]
  by_cases hform : (Access.write off size v).wellFormed = true
  case neg =>
    rw [memWrite, if_neg hform]
    exact iff_of_false (raiseFault_fault_ne_none _ s) fun ⟨hform', _⟩ => hform hform'
  case pos =>
    rw [memWrite, if_pos hform]
    cases hg : regAt off with
    | cmd => simp [listed, hform, hg, commandWrite_fault_iff v hf]
    | opa | opb => simp [listed, hform, hg, hf]
    | status | itercnt | mulcnt | res | pmod | reserved => simp [listed, hg, raiseFault_fault_ne_none]

end Sys2Proof.Machine
end

section

open Sys2Proof Sys2Proof.Machine Sys2Proof.Safety

/-- Settles O40: the window's words read as the register's, and a byte of a word is a byte of the register. -/
theorem platformBytesAreLittleEndian : Obligations.PlatformBytesAreLittleEndian := by
  intro s m
  refine ⟨platformByte_of_words (by decide) (by decide) (fun k => readAnswer_pmod k s) m, fun hA => ?opa,
    fun hB => ?opb, fun hv => ?res⟩
  case opa =>
    exact platformByte_of_words (by decide) (by decide) (fun k => (readAnswer_opa k s).trans (if_pos (hA k))) m
  case opb =>
    exact platformByte_of_words (by decide) (by decide) (fun k => (readAnswer_opb k s).trans (if_pos (hB k))) m
  case res =>
    exact platformByte_of_words (by decide) (by decide) (fun k => (readAnswer_res k s).trans (if_pos hv)) m

/-- Settles O43: a read by what its register answers, a write by what its register takes, and no unit step writes
FAULT. -/
theorem dutiesKeptMeansNoFault : Obligations.DutiesKeptMeansNoFault := by
  refine ⟨fun a s hf => ?_, unitStep_fault⟩
  cases a with
  | read off size => exact read_fault_iff_dutyKept off size hf
  | write off size v => exact write_fault_iff_dutyKept off size v hf

end
